-- ==== Sys2Proof/Word.lean ====
section
/-! DEFINITION. The words of the core and the sizes of its fields (spec/00_scope.md R7, R8; spec/10_state.md
R20 to R25; spec/30_encoding.md R71). -/

namespace Sys2Proof

/-- An 8-bit value: a general register, a timer, a memory byte (R20, R26, R27). -/
abbrev Byte := BitVec 8

/-- A 16-bit value: an instruction word, `I`, `pc`, a stack slot (R23, R24, R25, R70). -/
abbrev Word := BitVec 16

/-- A 4-bit value: a nibble of an instruction word, a key code (R8, R28). -/
abbrev Nibble := BitVec 4

/-- The 12-bit address field `nnn` (R71). -/
abbrev Addr12 := BitVec 12

/-- A register number 0..15, what a 4-bit register field selects (R20, R71). -/
abbrev RegIdx := Fin 16

end Sys2Proof
end

