-- ==== Sys2Proof/Syntax.lean ====
section
/-! DEFINITION. The 35 instructions of spec/30_encoding.md R75, one constructor per row of the opcode map, with the
fields of R71. Every field the word carries is kept, also those no rule reads (`nnn` of SYS, `y` of Shr and Shl),
so that encoding is the inverse of decoding (R79). -/

namespace Sys2Proof

/-- An instruction (R75). `x`, `y`: register numbers; `n`: a row count; `kk`: a byte; `nnn`: a 12-bit address. -/
inductive Instr where
  | cls
  | ret
  | sys (nnn : Addr12)
  | jp (nnn : Addr12)
  | call (nnn : Addr12)
  | skipIfEqByte (x : RegIdx) (kk : Byte)
  | skipIfNotEqByte (x : RegIdx) (kk : Byte)
  | skipIfEqReg (x y : RegIdx)
  | loadByte (x : RegIdx) (kk : Byte)
  | addByte (x : RegIdx) (kk : Byte)
  | loadReg (x y : RegIdx)
  | or (x y : RegIdx)
  | and (x y : RegIdx)
  | xor (x y : RegIdx)
  | addReg (x y : RegIdx)
  | sub (x y : RegIdx)
  | shr (x y : RegIdx)
  | subn (x y : RegIdx)
  | shl (x y : RegIdx)
  | skipIfNotEqReg (x y : RegIdx)
  | loadIndex (nnn : Addr12)
  | jumpPlusV0 (nnn : Addr12)
  | random (x : RegIdx) (kk : Byte)
  | draw (x y : RegIdx) (n : Fin 16)
  | skipIfKey (x : RegIdx)
  | skipIfNotKey (x : RegIdx)
  | loadDelay (x : RegIdx)
  | ldkr (x : RegIdx)
  | setDelay (x : RegIdx)
  | setSound (x : RegIdx)
  | addri (x : RegIdx)
  | ldsi (x : RegIdx)
  | storeBCD (x : RegIdx)
  | storeRegs (x : RegIdx)
  | loadRegs (x : RegIdx)
  deriving DecidableEq, Repr

end Sys2Proof
end

