-- ==== Sys2Proof/WellFormed.lean ====
section
/-! DEFINITION. Which terms of `Instr` are instructions of the core. Every field's range is its type's, so one
condition remains: SYS(nnn) is `0nnn` "with the word neither `00E0` nor `00EE`" (spec/41_control_flow.md R111,
spec/30_encoding.md R74, R75). -/

namespace Sys2Proof

/-- The term is an instruction that some word encodes. -/
def Instr.wf : Instr → Bool
  | .sys nnn => nnn != 0x0E0#12 && nnn != 0x0EE#12
  | .cls | .ret => true
  | .jp _ | .call _ | .loadIndex _ | .jumpPlusV0 _ => true
  | .skipIfEqByte _ _ | .skipIfNotEqByte _ _ | .loadByte _ _ | .addByte _ _ | .random _ _ => true
  | .skipIfEqReg _ _ | .skipIfNotEqReg _ _ | .loadReg _ _ | .or _ _ | .and _ _ | .xor _ _ => true
  | .addReg _ _ | .sub _ _ | .shr _ _ | .subn _ _ | .shl _ _ => true
  | .draw _ _ _ => true
  | .skipIfKey _ | .skipIfNotKey _ | .loadDelay _ | .ldkr _ | .setDelay _ | .setSound _ => true
  | .addri _ | .ldsi _ | .storeBCD _ | .storeRegs _ | .loadRegs _ => true

end Sys2Proof
end

