-- ==== Sys2Proof/Decode.lean ====
section
/-! DEFINITION. The decoder of spec/30_encoding.md R74, total on every word and on every list of bytes, rejecting by
name; and the encoder, written from the layouts of R72 and the patterns of R75. -/

namespace Sys2Proof

/-! ### Fields (R71) -/

/-- `n0 = w[15:12]`, the primary opcode selector. -/
def fieldN0 (w : Word) : Nibble := w.extractLsb' 12 4

/-- `n1 = w[11:8]`, the bits of `x`. -/
def fieldN1 (w : Word) : Nibble := w.extractLsb' 8 4

/-- `n2 = w[7:4]`, the bits of `y`. -/
def fieldN2 (w : Word) : Nibble := w.extractLsb' 4 4

/-- `n3 = w[3:0]`, the bits of `n` and the selector of the 5, 8 and 9 groups. -/
def fieldN3 (w : Word) : Nibble := w.extractLsb' 0 4

/-- `kk = w[7:0]`. -/
def fieldKK (w : Word) : Byte := w.extractLsb' 0 8

/-- `nnn = w[11:0]`. -/
def fieldNNN (w : Word) : Addr12 := w.extractLsb' 0 12

/-- The number 0..15 that a 4-bit field holds (R20: every encoding names a valid register). -/
def ofNibble (v : Nibble) : Fin 16 := ⟨v.toNat, v.isLt⟩

/-- The 4-bit field that holds a number 0..15. -/
def toNibble (x : Fin 16) : Nibble := BitVec.ofNat 4 x.val

/-! ### The decoder (R74) -/

/-- Why bytes are no instruction. -/
inductive DecodeReject where
  /-- The word matches no pattern of R75: `DecodeError(w)` (R76). -/
  | noPattern (w : Word)
  /-- Fewer than the two bytes of an instruction word were given (R70). -/
  | truncated
  deriving DecidableEq, Repr

/-- The ALU group `8xyN`, selected by `n` (R74). -/
def decodeAlu (w : Word) (x y : RegIdx) (n : Nibble) : Except DecodeReject Instr :=
  if n = 0x0#4 then .ok (.loadReg x y)
  else if n = 0x1#4 then .ok (.or x y)
  else if n = 0x2#4 then .ok (.and x y)
  else if n = 0x3#4 then .ok (.xor x y)
  else if n = 0x4#4 then .ok (.addReg x y)
  else if n = 0x5#4 then .ok (.sub x y)
  else if n = 0x6#4 then .ok (.shr x y)
  else if n = 0x7#4 then .ok (.subn x y)
  else if n = 0xE#4 then .ok (.shl x y)
  else .error (.noPattern w)

/-- The key-skip group `ExKK`, selected by `kk` (R74). -/
def decodeKeySkip (w : Word) (x : RegIdx) (kk : Byte) : Except DecodeReject Instr :=
  if kk = 0x9E#8 then .ok (.skipIfKey x)
  else if kk = 0xA1#8 then .ok (.skipIfNotKey x)
  else .error (.noPattern w)

/-- The group `FxKK`, selected by `kk` (R74). -/
def decodeFx (w : Word) (x : RegIdx) (kk : Byte) : Except DecodeReject Instr :=
  if kk = 0x07#8 then .ok (.loadDelay x)
  else if kk = 0x0A#8 then .ok (.ldkr x)
  else if kk = 0x15#8 then .ok (.setDelay x)
  else if kk = 0x18#8 then .ok (.setSound x)
  else if kk = 0x1E#8 then .ok (.addri x)
  else if kk = 0x29#8 then .ok (.ldsi x)
  else if kk = 0x33#8 then .ok (.storeBCD x)
  else if kk = 0x55#8 then .ok (.storeRegs x)
  else if kk = 0x65#8 then .ok (.loadRegs x)
  else .error (.noPattern w)

/-- `Decode(w)` of R74: dispatch on `n0`, then on the sub-selectors; the exact words `00E0` and `00EE` win over
`0nnn`. -/
def decodeWord (w : Word) : Except DecodeReject Instr :=
  let n0 := fieldN0 w
  let x := ofNibble (fieldN1 w)
  let y := ofNibble (fieldN2 w)
  let n := fieldN3 w
  let kk := fieldKK w
  let nnn := fieldNNN w
  if n0 = 0x0#4 then
    if w = 0x00E0#16 then .ok .cls
    else if w = 0x00EE#16 then .ok .ret
    else .ok (.sys nnn)
  else if n0 = 0x1#4 then .ok (.jp nnn)
  else if n0 = 0x2#4 then .ok (.call nnn)
  else if n0 = 0x3#4 then .ok (.skipIfEqByte x kk)
  else if n0 = 0x4#4 then .ok (.skipIfNotEqByte x kk)
  else if n0 = 0x5#4 then if n = 0x0#4 then .ok (.skipIfEqReg x y) else .error (.noPattern w)
  else if n0 = 0x6#4 then .ok (.loadByte x kk)
  else if n0 = 0x7#4 then .ok (.addByte x kk)
  else if n0 = 0x8#4 then decodeAlu w x y n
  else if n0 = 0x9#4 then if n = 0x0#4 then .ok (.skipIfNotEqReg x y) else .error (.noPattern w)
  else if n0 = 0xA#4 then .ok (.loadIndex nnn)
  else if n0 = 0xB#4 then .ok (.jumpPlusV0 nnn)
  else if n0 = 0xC#4 then .ok (.random x kk)
  else if n0 = 0xD#4 then .ok (.draw x y (ofNibble n))
  else if n0 = 0xE#4 then decodeKeySkip w x kk
  else decodeFx w x kk

/-- The big-endian word of two bytes, `(hi << 8) | lo` (spec/20_memory.md R53). -/
def wordOfBytes (hi lo : Byte) : Word := hi ++ lo

/-- The byte at the lower address of a big-endian word. -/
def hiByte (w : Word) : Byte := w.extractLsb' 8 8

/-- The byte at the higher address of a big-endian word. -/
def loByte (w : Word) : Byte := w.extractLsb' 0 8

/-- Decode the instruction at the head of a list of bytes, lowest address first, and give the bytes after it. -/
def decodeBytes : List Byte → Except DecodeReject (Instr × List Byte)
  | hi :: lo :: rest =>
    match decodeWord (wordOfBytes hi lo) with
    | .ok i => .ok (i, rest)
    | .error e => .error e
  | _ => .error .truncated

/-! ### The encoder (R72, R75, R79) -/

/-- Format `A`: opcode, `nnn`. -/
def layoutA (op : Nibble) (nnn : Addr12) : Word := op ++ nnn

/-- Formats `XK` and `X`: opcode, `x`, a byte (an immediate or a selector). -/
def layoutXK (op : Nibble) (x : RegIdx) (kk : Byte) : Word := op ++ toNibble x ++ kk

/-- Formats `XY` and `XYN`: opcode, `x`, `y`, a nibble (a selector or a count). -/
def layoutXY (op : Nibble) (x y : RegIdx) (n : Nibble) : Word := op ++ toNibble x ++ toNibble y ++ n

/-- The word of an instruction (R79): the fields at the bits of R71, the fixed bits of R75. -/
def encode : Instr → Word
  | .cls => 0x00E0#16
  | .ret => 0x00EE#16
  | .sys nnn => layoutA 0x0#4 nnn
  | .jp nnn => layoutA 0x1#4 nnn
  | .call nnn => layoutA 0x2#4 nnn
  | .skipIfEqByte x kk => layoutXK 0x3#4 x kk
  | .skipIfNotEqByte x kk => layoutXK 0x4#4 x kk
  | .skipIfEqReg x y => layoutXY 0x5#4 x y 0x0#4
  | .loadByte x kk => layoutXK 0x6#4 x kk
  | .addByte x kk => layoutXK 0x7#4 x kk
  | .loadReg x y => layoutXY 0x8#4 x y 0x0#4
  | .or x y => layoutXY 0x8#4 x y 0x1#4
  | .and x y => layoutXY 0x8#4 x y 0x2#4
  | .xor x y => layoutXY 0x8#4 x y 0x3#4
  | .addReg x y => layoutXY 0x8#4 x y 0x4#4
  | .sub x y => layoutXY 0x8#4 x y 0x5#4
  | .shr x y => layoutXY 0x8#4 x y 0x6#4
  | .subn x y => layoutXY 0x8#4 x y 0x7#4
  | .shl x y => layoutXY 0x8#4 x y 0xE#4
  | .skipIfNotEqReg x y => layoutXY 0x9#4 x y 0x0#4
  | .loadIndex nnn => layoutA 0xA#4 nnn
  | .jumpPlusV0 nnn => layoutA 0xB#4 nnn
  | .random x kk => layoutXK 0xC#4 x kk
  | .draw x y n => layoutXY 0xD#4 x y (toNibble n)
  | .skipIfKey x => layoutXK 0xE#4 x 0x9E#8
  | .skipIfNotKey x => layoutXK 0xE#4 x 0xA1#8
  | .loadDelay x => layoutXK 0xF#4 x 0x07#8
  | .ldkr x => layoutXK 0xF#4 x 0x0A#8
  | .setDelay x => layoutXK 0xF#4 x 0x15#8
  | .setSound x => layoutXK 0xF#4 x 0x18#8
  | .addri x => layoutXK 0xF#4 x 0x1E#8
  | .ldsi x => layoutXK 0xF#4 x 0x29#8
  | .storeBCD x => layoutXK 0xF#4 x 0x33#8
  | .storeRegs x => layoutXK 0xF#4 x 0x55#8
  | .loadRegs x => layoutXK 0xF#4 x 0x65#8

/-- The two bytes of an instruction as memory holds them, high byte at the lower address (R70). -/
def encodeBytes (i : Instr) : List Byte := [hiByte (encode i), loByte (encode i)]

/-! ### The host's view of the decoder -/

/-- The 16-bit word of a row's bits: `nbits` bits of `w`, every bit above them 0. -/
def tableWord (nbits w : Nat) : Word := BitVec.ofNat 16 (w % 2 ^ nbits)

/-- What the decoder reads from an instruction whose bits are `w`, numbered as spec/opcode_table.json numbers them:
the word laid out in its two bytes and decoded. -/
def decodeTableWord (nbits w : Nat) : Option Instr :=
  match decodeBytes [hiByte (tableWord nbits w), loByte (tableWord nbits w)] with
  | .ok (i, _) => some i
  | .error _ => none

/-! ### The opcode table (spec/opcode_table.json), a second description of the decoder -/

/-- A row of the opcode table: a word is the row's when it agrees with `pattern` on the bits of `mask` and is not
excluded (SYS excludes `00E0` and `00EE`). -/
structure OpcodeRow where
  mnemonic : String
  mask : Word
  pattern : Word
  exclude : List Word
  deriving DecidableEq, Repr

/-- The word is this row's. -/
def OpcodeRow.fits (r : OpcodeRow) (w : Word) : Bool := w &&& r.mask == r.pattern && !r.exclude.contains w

/-- The 35 rows, in the table's order. -/
def opcodeRows : List OpcodeRow :=
  [OpcodeRow.mk "CLS" 0xFFFF#16 0x00E0#16 []] ++
  [OpcodeRow.mk "RET" 0xFFFF#16 0x00EE#16 []] ++
  [OpcodeRow.mk "SYS" 0xF000#16 0x0000#16 [0x00E0#16, 0x00EE#16]] ++
  [OpcodeRow.mk "JP" 0xF000#16 0x1000#16 []] ++
  [OpcodeRow.mk "CALL" 0xF000#16 0x2000#16 []] ++
  [OpcodeRow.mk "SkipIfEqByte" 0xF000#16 0x3000#16 []] ++
  [OpcodeRow.mk "SkipIfNotEqByte" 0xF000#16 0x4000#16 []] ++
  [OpcodeRow.mk "SkipIfEqReg" 0xF00F#16 0x5000#16 []] ++
  [OpcodeRow.mk "LoadByte" 0xF000#16 0x6000#16 []] ++
  [OpcodeRow.mk "AddByte" 0xF000#16 0x7000#16 []] ++
  [OpcodeRow.mk "LoadReg" 0xF00F#16 0x8000#16 []] ++
  [OpcodeRow.mk "Or" 0xF00F#16 0x8001#16 []] ++
  [OpcodeRow.mk "And" 0xF00F#16 0x8002#16 []] ++
  [OpcodeRow.mk "Xor" 0xF00F#16 0x8003#16 []] ++
  [OpcodeRow.mk "AddReg" 0xF00F#16 0x8004#16 []] ++
  [OpcodeRow.mk "Sub" 0xF00F#16 0x8005#16 []] ++
  [OpcodeRow.mk "Shr" 0xF00F#16 0x8006#16 []] ++
  [OpcodeRow.mk "Subn" 0xF00F#16 0x8007#16 []] ++
  [OpcodeRow.mk "Shl" 0xF00F#16 0x800E#16 []] ++
  [OpcodeRow.mk "SkipIfNotEqReg" 0xF00F#16 0x9000#16 []] ++
  [OpcodeRow.mk "LoadIndex" 0xF000#16 0xA000#16 []] ++
  [OpcodeRow.mk "JumpPlusV0" 0xF000#16 0xB000#16 []] ++
  [OpcodeRow.mk "Random" 0xF000#16 0xC000#16 []] ++
  [OpcodeRow.mk "Draw" 0xF000#16 0xD000#16 []] ++
  [OpcodeRow.mk "SkipIfKey" 0xF0FF#16 0xE09E#16 []] ++
  [OpcodeRow.mk "SkipIfNotKey" 0xF0FF#16 0xE0A1#16 []] ++
  [OpcodeRow.mk "LoadDelay" 0xF0FF#16 0xF007#16 []] ++
  [OpcodeRow.mk "LDKR" 0xF0FF#16 0xF00A#16 []] ++
  [OpcodeRow.mk "SetDelay" 0xF0FF#16 0xF015#16 []] ++
  [OpcodeRow.mk "SetSound" 0xF0FF#16 0xF018#16 []] ++
  [OpcodeRow.mk "ADDRI" 0xF0FF#16 0xF01E#16 []] ++
  [OpcodeRow.mk "LDSI" 0xF0FF#16 0xF029#16 []] ++
  [OpcodeRow.mk "StoreBCD" 0xF0FF#16 0xF033#16 []] ++
  [OpcodeRow.mk "StoreRegs" 0xF0FF#16 0xF055#16 []] ++
  [OpcodeRow.mk "LoadRegs" 0xF0FF#16 0xF065#16 []]

/-- The mnemonics of the rows a word fits. -/
def tableMnemonics (w : Word) : List String := (opcodeRows.filter fun r => r.fits w).map OpcodeRow.mnemonic

/-- The mnemonic of an instruction as the table spells it. -/
def Instr.mnemonic : Instr → String
  | .cls => "CLS"
  | .ret => "RET"
  | .sys _ => "SYS"
  | .jp _ => "JP"
  | .call _ => "CALL"
  | .skipIfEqByte _ _ => "SkipIfEqByte"
  | .skipIfNotEqByte _ _ => "SkipIfNotEqByte"
  | .skipIfEqReg _ _ => "SkipIfEqReg"
  | .loadByte _ _ => "LoadByte"
  | .addByte _ _ => "AddByte"
  | .loadReg _ _ => "LoadReg"
  | .or _ _ => "Or"
  | .and _ _ => "And"
  | .xor _ _ => "Xor"
  | .addReg _ _ => "AddReg"
  | .sub _ _ => "Sub"
  | .shr _ _ => "Shr"
  | .subn _ _ => "Subn"
  | .shl _ _ => "Shl"
  | .skipIfNotEqReg _ _ => "SkipIfNotEqReg"
  | .loadIndex _ => "LoadIndex"
  | .jumpPlusV0 _ => "JumpPlusV0"
  | .random _ _ => "Random"
  | .draw _ _ _ => "Draw"
  | .skipIfKey _ => "SkipIfKey"
  | .skipIfNotKey _ => "SkipIfNotKey"
  | .loadDelay _ => "LoadDelay"
  | .ldkr _ => "LDKR"
  | .setDelay _ => "SetDelay"
  | .setSound _ => "SetSound"
  | .addri _ => "ADDRI"
  | .ldsi _ => "LDSI"
  | .storeBCD _ => "StoreBCD"
  | .storeRegs _ => "StoreRegs"
  | .loadRegs _ => "LoadRegs"

end Sys2Proof
end

