-- ==== Sys2Proof/Config.lean ====
section
/-! DEFINITION. The fixed values of the core (spec/00_scope.md R6) and its one free value, the random input of a
Step (spec/40_cycle.md R94). The font parameter is held in the state's memory; its default table is
Machine/Font.lean's. -/

namespace Sys2Proof.Config

/-- ROM bytes are loaded from 0x200 (spec/20_memory.md R51, spec/70_reset_and_hazards.md R232). -/
abbrev romBase : Nat := 0x200

/-- The largest ROM, 4096 - 0x200 bytes (spec/00_scope.md R6, R232). -/
abbrev romMax : Nat := 3584

/-- The value of the parameter `FONT_ROM` has 80 bytes (spec/20_memory.md R52, D20). -/
abbrev FontRom := Vector Byte 80

/-- FREE VALUE (log 1): the random byte `draw8` of the draw number `k` (R94: "a free input under no law"). It
has no body, so a claim that holds of the model holds for every sequence of draws. -/
opaque draw8 : Nat → Byte

end Sys2Proof.Config
end

