-- ==== Sys2Proof/Machine/Font.lean ====
section
/-! DEFINITION. The default value of the parameter `FONT_ROM` (spec/20_memory.md R52). PRESUMED (log 2): the spec marks
the table as general knowledge, not in its source. -/

namespace Sys2Proof.Machine

/-- The conventional CHIP-8 font, 16 glyphs of 5 bytes, digit `d` at `5*d` (R52's table). PRESUMED, log 2. -/
def defaultFontRom : Config.FontRom :=
  #v[0xF0, 0x90, 0x90, 0x90, 0xF0,
     0x20, 0x60, 0x20, 0x20, 0x70,
     0xF0, 0x10, 0xF0, 0x80, 0xF0,
     0xF0, 0x10, 0xF0, 0x10, 0xF0,
     0x90, 0x90, 0xF0, 0x10, 0x10,
     0xF0, 0x80, 0xF0, 0x10, 0xF0,
     0xF0, 0x80, 0xF0, 0x90, 0xF0,
     0xF0, 0x10, 0x20, 0x40, 0x40,
     0xF0, 0x90, 0xF0, 0x90, 0xF0,
     0xF0, 0x90, 0xF0, 0x10, 0xF0,
     0xF0, 0x90, 0xF0, 0x90, 0x90,
     0xE0, 0x90, 0xE0, 0x90, 0xE0,
     0xF0, 0x80, 0x80, 0x80, 0xF0,
     0xE0, 0x90, 0x90, 0x90, 0xE0,
     0xF0, 0x80, 0xF0, 0x80, 0xF0,
     0xF0, 0x80, 0xF0, 0x80, 0x80]

end Sys2Proof.Machine
end

