-- ==== Sys2Proof/Machine/State.lean ====
section
/-! DEFINITION. The machine state of spec/10_state.md (R20 to R33) as plain data, the errors of
spec/60_exceptions.md R200, and the state after Reset (R33). -/

namespace Sys2Proof.Machine

/-- The execution mode (R30): `Ready`, or `AwaitingKey(x)` with the register LDKR will load. -/
inductive Mode where
  | ready
  | awaitingKey (x : RegIdx)
  deriving DecidableEq, Repr

/-- Memory (R27): the bytes that differ from what an unlisted address reads as, and the parameter `FONT_ROM` that
says what the first 80 unlisted addresses read as (R52, D20; log 2, log 3). -/
structure Memory where
  font : Config.FontRom
  cells : List Host.Cell
  deriving DecidableEq, Repr

/-- The framebuffer (R29): 32 rows of 64 pixels, `fb[y][x]`, true for a set pixel. -/
abbrev Framebuffer := Vector (Vector Bool 64) 32

/-- The Machine State (R32 lists it whole) and the model's own counter of draws. -/
structure State where
  /-- `V[0..15]` (R20); `VF` is `V[15]` (R22). -/
  V : Vector Byte 16
  /-- The index register (R23). -/
  I : Word
  /-- The program counter (R24). -/
  pc : Word
  /-- The 16 stack slots (R25). -/
  stack : Vector Word 16
  /-- The number of live stack entries, 0..16 (R25, D2; log 5). -/
  sp : Fin 17
  /-- The delay timer (R26). -/
  DT : Byte
  /-- The sound timer (R26). -/
  ST : Byte
  /-- The 4096 bytes of memory (R27). -/
  mem : Memory
  /-- The pressed key, or none (R28). -/
  key : Option Nibble
  /-- The framebuffer (R29). -/
  fb : Framebuffer
  /-- The execution mode (R30). -/
  mode : Mode
  /-- Whether a ROM was loaded since the last reset (R31). -/
  romLoaded : Bool
  /-- The model's own: how many random bytes have been consumed (R94, log 1). -/
  draws : Nat
  deriving DecidableEq, Repr

/-- The error values (R200). An operation that ends with one leaves the whole state as it was (R202; log 22), so
after `.fault e` the state is the one the operation began in. Every one is safe: the model reports the error the
spec names, and does nothing else. -/
inductive Fault where
  /-- Step: the fetched word matches no instruction pattern (R76). -/
  | decodeError (w : Word)
  /-- Step, CALL: the stack holds 16 entries (R114). -/
  | stackOverflow
  /-- Step, RET: the stack is empty (R112). -/
  | stackUnderflow
  /-- LoadRom: more than 3584 bytes (R232). -/
  | romTooLarge
  /-- LoadRom: a ROM is loaded and no Reset came between (R232). -/
  | alreadyLoaded
  /-- Step (fetch, Draw, StoreBCD, StoreRegs, LoadRegs): an access reaches past 0xFFF; `a` is its lowest address
  there (R56, D6; log 9). -/
  | addressOutOfRange (a : Nat)
  deriving DecidableEq, Repr

/-- Reasons to give no meaning. None is raised: every instruction has its meaning. -/
inductive Refusal where
  /-- An instruction the model does not give a meaning yet; raised only by an arm of `exec`. Safe. -/
  | notModelled (mnemonic : String)
  deriving DecidableEq, Repr

/-- The state after Reset and at creation (R33, R230). `mem.font` is the default of the parameter `FONT_ROM`
(PRESUMED, log 2); `draws` is the model's own (DESIGN CHOICE, log 1); everything else is R33's value. -/
def State.reset : State where
  V := Vector.replicate 16 0
  I := 0
  pc := 0
  stack := Vector.replicate 16 0
  sp := 0
  DT := 0
  ST := 0
  mem := { font := defaultFontRom, cells := [] }
  key := none
  fb := Vector.replicate 32 (Vector.replicate 64 false)
  mode := .ready
  romLoaded := false
  draws := 0

end Sys2Proof.Machine
end

