-- ==== Sys2Proof/Machine/Ops.lean ====
section
/-! DEFINITION. The named operations the instructions share: ending a step, the program counter, registers, memory,
the stack and the framebuffer (spec/00_scope.md R9 to R11; spec/20_memory.md R50 to R56; spec/40_cycle.md R92;
spec/44_display.md R170). -/

namespace Sys2Proof.Machine

/-- What a Step, and each instruction's meaning, answers. -/
abbrev Result := Host.Outcome State Fault Refusal

/-! ### Ending a step (R11, R200 to R205) -/

/-- Taking an exception, the one way an operation ends abnormally: `raise E(info)` returns the error value to the
host and leaves the state as it was before the operation began (R11, R202). The core saves nothing, changes no
mode, vectors nowhere, and has no return from a trap (R205), so nothing stands beside it. -/
def raise (e : Fault) : Result := .fault e

/-- Go on with the value of a check that passed, or raise the error of one that failed. -/
def orRaise {α : Type} (r : Except Fault α) (k : α → Result) : Result :=
  match r with
  | .ok v => k v
  | .error e => raise e

/-! ### Program counter (R9, R11, R92) -/

/-- `pc <- target`. -/
def State.setPc (s : State) (target : Word) : State := { s with pc := target }

/-- `advance(k)`: `pc <- (pc + k) mod 2^16` (R11, R92). -/
def State.advance (s : State) (k : Nat) : State := s.setPc (s.pc + BitVec.ofNat 16 k)

/-- The end of an instruction that is no transfer of control: `advance(2)`, then the next state (R92). -/
def State.done (s : State) : Result := .next (s.advance 2)

/-- `if c then advance(4) else advance(2)` (spec/41_control_flow.md R110). -/
def State.skipIf (s : State) (c : Bool) : Result := .next (s.advance (if c then 4 else 2))

/-! ### General registers (R9, R20) -/

/-- `VF`, register 15 (R22). -/
def vf : RegIdx := 15

/-- `V[i]` (R9). -/
def State.getV (s : State) (i : RegIdx) : Byte := s.V[i.val]

/-- `V[i] <- v` (R9). -/
def State.setV (s : State) (i : RegIdx) (v : Byte) : State := { s with V := s.V.set i.val v }

/-! ### Other registers -/

/-- `I <- v` (R23). -/
def State.setI (s : State) (v : Word) : State := { s with I := v }

/-- `DT <- v` (R26). -/
def State.setDT (s : State) (v : Byte) : State := { s with DT := v }

/-- `ST <- v` (R26). -/
def State.setST (s : State) (v : Byte) : State := { s with ST := v }

/-- `mode <- m` (R30). -/
def State.setMode (s : State) (m : Mode) : State := { s with mode := m }

/-- One random byte is consumed (log 1). -/
def State.nextDraw (s : State) : State := { s with draws := s.draws + 1 }

/-! ### Memory (R50 to R56) -/

/-- What an unlisted address reads as: the reset contents (R33, R51), the font bytes at 0x000..0x04F and 0 elsewhere
(log 3). -/
def Memory.unlisted (m : Memory) (a : Nat) : Byte := if h : a < 80 then m.font[a] else 0

/-- The byte listed for an address, if one is. -/
def findCell : List Host.Cell → Nat → Option Byte
  | [], _ => none
  | (b, v) :: rest, a => if a = b then some v else findCell rest a

/-- List `v` at `a`, in address order. -/
def setCell : List Host.Cell → Nat → Byte → List Host.Cell
  | [], a, v => [(a, v)]
  | (b, w) :: rest, a, v =>
    if a < b then (a, v) :: (b, w) :: rest
    else if a = b then (a, v) :: rest
    else (b, w) :: setCell rest a v

/-- Take the entry of `a` out. -/
def eraseCell (cells : List Host.Cell) (a : Nat) : List Host.Cell := cells.filter fun c => c.1 != a

/-- `mem[a]` (R50). -/
def Memory.read (m : Memory) (a : Nat) : Byte := (findCell m.cells a).getD (m.unlisted a)

/-- `mem[a] <- v`, keeping the canonical form: a byte equal to what an unlisted address reads as is not listed. -/
def Memory.write (m : Memory) (a : Nat) (v : Byte) : Memory :=
  { m with cells := if v = m.unlisted a then eraseCell m.cells a else setCell m.cells a v }

/-- The `n` bytes at `a, a+1, ..`, lowest address first (R10). -/
def Memory.readList (m : Memory) (a n : Nat) : List Byte := (List.range n).map fun i => m.read (a + i)

/-- Write the bytes at `a, a+1, ..` in this order (R55). -/
def Memory.writeList (m : Memory) (a : Nat) : List Byte → Memory
  | [] => m
  | v :: vs => (m.write a v).writeList (a + 1) vs

/-- The canonical form: addresses strictly rising and inside memory, no entry equal to what an unlisted address
reads as. Equal memories of one font are then equal data. -/
abbrev Memory.wf (m : Memory) : Prop :=
  m.cells.Pairwise (fun c d => c.1 < d.1) ∧ ∀ c ∈ m.cells, c.1 < 0x1000 ∧ c.2 ≠ m.unlisted c.1

/-- `RangeCheck(base, count)` of R56: the error of an access of `count` bytes at `base`, if it reaches past 0xFFF.
The sum is in Nat, without wrap-around (D7; log 9). -/
def rangeError (base count : Nat) : Option Fault :=
  if count > 0 ∧ base + count - 1 > 0xFFF then some (.addressOutOfRange (max base 0x1000)) else none

/-- `MemRead(base, count)`: range-checked, then the bytes (R10, R56). -/
def State.memRead (s : State) (base count : Nat) : Except Fault (List Byte) :=
  match rangeError base count with
  | some e => .error e
  | none => .ok (s.mem.readList base count)

/-- `MemWrite` of consecutive bytes: the whole range is checked before the first byte moves (R56). -/
def State.memWrite (s : State) (base : Nat) (vs : List Byte) : Except Fault State :=
  match rangeError base vs.length with
  | some e => .error e
  | none => .ok { s with mem := s.mem.writeList base vs }

/-! ### Stack (R25, D2; log 5) -/

/-- Push a return address: `stack[sp] <- v; sp <- sp + 1`, or StackOverflow with 16 entries (R114). -/
def State.push (s : State) (v : Word) : Except Fault State :=
  if h : s.sp.val < 16 then
    .ok { s with stack := s.stack.set s.sp.val v, sp := ⟨s.sp.val + 1, by omega⟩ }
  else .error .stackOverflow

/-- Pop a return address: `sp <- sp - 1`, then the slot `stack[sp]`, or StackUnderflow when empty (R112). -/
def State.pop (s : State) : Except Fault (Word × State) :=
  if h : 0 < s.sp.val then
    .ok (s.stack[s.sp.val - 1]'(by have := s.sp.isLt; omega), { s with sp := ⟨s.sp.val - 1, by omega⟩ })
  else .error .stackUnderflow

/-! ### Framebuffer (R29, R170) -/

/-- `clear`: every pixel 0. -/
def fbClear : Framebuffer := Vector.replicate 32 (Vector.replicate 64 false)

/-- `get(x, y)`, the pixel at column `x` of row `y`; a coordinate outside the frame names no pixel and reads false. -/
def fbGet (fb : Framebuffer) (x y : Nat) : Bool :=
  if h : x < 64 ∧ y < 32 then (fb[y]'h.2)[x]'h.1 else false

/-- `xorset(x, y)` on the pixels: flip the one named, none when the coordinate is outside the frame ("clipped
(dropped), not wrapped", R172). Its report, whether the pixel was set before, is `fbGet` of the frame before. -/
def fbFlip (fb : Framebuffer) (x y : Nat) : Framebuffer :=
  if h : x < 64 ∧ y < 32 then fb.set y ((fb[y]'h.2).set x (!(fb[y]'h.2)[x]'h.1) h.1) h.2 else fb

/-- A frame being drawn: the pixels, and whether a set pixel was unset so far (R172's `fb` and `collision`). -/
abbrev Canvas := Framebuffer × Bool

/-- One set bit of a sprite at coordinate `(x, y)` (R172). -/
def plot (c : Canvas) (x y : Nat) : Canvas := (fbFlip c.1 x y, c.2 || fbGet c.1 x y)

/-- One row of a sprite with its left end at `(x, y)`: columns 0..7, the most significant bit leftmost (R172). -/
def plotRow (c : Canvas) (x y : Nat) (row : Byte) : Canvas :=
  (List.range 8).foldl (fun c k => if row.getLsbD (7 - k) then plot c (x + k) y else c) c

/-- The rows of a sprite from `(x, y)` downwards (R172). -/
def plotRows (c : Canvas) (x y : Nat) : List Byte → Canvas
  | [] => c
  | row :: rows => plotRows (plotRow c x y row) x (y + 1) rows

end Sys2Proof.Machine
end

