-- ==== Sys2Proof/Machine/Flags.lean ====
section
/-! DEFINITION. The flag outputs (spec/10_state.md R22; spec/42_alu.md R131, R144; spec/44_display.md R172). -/

namespace Sys2Proof.Machine

/-- A flag as the byte written to `VF`: 1 or 0. -/
def flagByte (c : Bool) : Byte := if c then 1 else 0

/-- Carry of AddReg: the unwrapped sum exceeds 255 (R138). -/
def carryFlag (a b : Byte) : Byte := flagByte (a.toNat + b.toNat > 255)

/-- No-borrow of `a - b`, a strict comparison: 1 when `a > b`, 0 for equal operands (R139, R141). -/
def noBorrowFlag (a b : Byte) : Byte := flagByte (a.toNat > b.toNat)

/-- The bit a right shift by one drops, bit 0 (R140). -/
def lowBitFlag (a : Byte) : Byte := flagByte (a.getLsbD 0)

/-- The bit a left shift by one drops, bit 7 (R142). -/
def highBitFlag (a : Byte) : Byte := flagByte (a.getLsbD 7)

/-- Collision of Draw (R172). -/
def collisionFlag (c : Bool) : Byte := flagByte c

/-- Write a result, then the flag: the flag is written last, so a destination that is `VF` ends holding it (R131,
D4; log 7). -/
def State.setVFlag (s : State) (d : RegIdx) (result flag : Byte) : State := (s.setV d result).setV vf flag

end Sys2Proof.Machine
end

