-- ==== Sys2Proof/Machine/Alu.lean ====
section
/-! DEFINITION. The register and arithmetic instructions (spec/42_alu.md). Operands are read at the start of the
instruction; a flag is written last (R131). -/

namespace Sys2Proof.Machine

/-- LoadByte (R132). -/
def execLoadByte (x : RegIdx) (kk : Byte) (s : State) : Result := (s.setV x kk).done

/-- AddByte (R133): wraps, no flag (D5; log 8). -/
def execAddByte (x : RegIdx) (kk : Byte) (s : State) : Result := (s.setV x (s.getV x + kk)).done

/-- LoadReg (R134): `V[x] <- V[y]` (D28; log 24). -/
def execLoadReg (x y : RegIdx) (s : State) : Result := (s.setV x (s.getV y)).done

/-- Or (R135). -/
def execOr (x y : RegIdx) (s : State) : Result := (s.setV x (s.getV x ||| s.getV y)).done

/-- And (R136). -/
def execAnd (x y : RegIdx) (s : State) : Result := (s.setV x (s.getV x &&& s.getV y)).done

/-- Xor (R137). -/
def execXor (x y : RegIdx) (s : State) : Result := (s.setV x (s.getV x ^^^ s.getV y)).done

/-- AddReg (R138): the sum modulo 256, then the carry. -/
def execAddReg (x y : RegIdx) (s : State) : Result :=
  (s.setVFlag x (s.getV x + s.getV y) (carryFlag (s.getV x) (s.getV y))).done

/-- Sub (R139): `V[x] - V[y]` modulo 256, then the strict no-borrow flag. -/
def execSub (x y : RegIdx) (s : State) : Result :=
  (s.setVFlag x (s.getV x - s.getV y) (noBorrowFlag (s.getV x) (s.getV y))).done

/-- Shr (R140): `V[y]` is not read (D29; log 25). -/
def execShr (x _y : RegIdx) (s : State) : Result := (s.setVFlag x (s.getV x >>> 1) (lowBitFlag (s.getV x))).done

/-- Subn (R141): `V[y] - V[x]` modulo 256, written to `V[y]` (C7), then the strict no-borrow flag. -/
def execSubn (x y : RegIdx) (s : State) : Result :=
  (s.setVFlag y (s.getV y - s.getV x) (noBorrowFlag (s.getV y) (s.getV x))).done

/-- Shl (R142): `V[y]` is not read (D29; log 25). -/
def execShl (x _y : RegIdx) (s : State) : Result := (s.setVFlag x (s.getV x <<< 1) (highBitFlag (s.getV x))).done

/-- Random (R143): `V[x] <- kk & draw8`, with the random byte of this Step, a free value (R94; log 1). -/
def execRandom (x : RegIdx) (kk : Byte) (s : State) : Result :=
  (s.nextDraw.setV x (kk &&& Config.draw8 s.draws)).done

end Sys2Proof.Machine
end

