-- ==== Sys2Proof/Machine/Operands.lean ====
section
/-! DEFINITION. The operand forms (spec/30_encoding.md R73, spec/43_index_memory.md R150, spec/45_keys_timers.md R180):
zero-extended immediates, the memory base `I`, register ranges, the key match, the decimal digits. -/

namespace Sys2Proof.Machine

/-- `zext_16(nnn)`: a 12-bit address as a 16-bit value (R73). -/
def zext16 (nnn : Addr12) : Word := nnn.setWidth 16

/-- `zext_16(v)` of a register (R152, R153). -/
def zextByte (v : Byte) : Word := v.setWidth 16

/-- `zext_8(key)`: a key code as a byte (R183). -/
def zextKey (k : Nibble) : Byte := k.setWidth 8

/-- The base address of a data access, `I` in Nat (R150). -/
def State.base (s : State) : Nat := s.I.toNat

/-- `V[0] .. V[x]`, lowest first (R155). -/
def State.regsUpTo (s : State) (x : RegIdx) : List Byte := s.V.toList.take (x.val + 1)

/-- `V[0] .. V[x]` loaded from a list of bytes, the registers above `x` unchanged (R156). -/
def State.loadRegsUpTo (s : State) (x : RegIdx) (vs : List Byte) : State :=
  { s with V := Vector.ofFn fun i => if i.val ≤ x.val then vs.getD i.val 0 else s.V[i.val] }

/-- `KeyMatch(v)`: a key is pressed and equals the low nibble of `v` (R180). -/
def State.keyMatch (s : State) (v : Byte) : Bool := s.key == some (v.extractLsb' 0 4)

/-- The decimal digits of a byte, hundreds, tens, units (R154). -/
def bcdDigits (v : Byte) : List Byte :=
  [BitVec.ofNat 8 (v.toNat / 100), BitVec.ofNat 8 (v.toNat / 10 % 10), BitVec.ofNat 8 (v.toNat % 10)]

end Sys2Proof.Machine
end

