-- ==== Sys2Proof/Machine/ControlFlow.lean ====
section
/-! DEFINITION. The control flow instructions (spec/41_control_flow.md). -/

namespace Sys2Proof.Machine

/-- SYS (R111): a no-op that advances `pc`; `nnn` is not read. -/
def execSys (_nnn : Addr12) (s : State) : Result := s.done

/-- RET (R112): pop into `pc`, an absolute assignment; StackUnderflow when empty. -/
def execRet (s : State) : Result := orRaise s.pop fun r => .next (r.2.setPc r.1)

/-- JP (R113). -/
def execJp (nnn : Addr12) (s : State) : Result := .next (s.setPc (zext16 nnn))

/-- CALL (R114): push the address of the next instruction (D3; log 6), then jump; StackOverflow when full. -/
def execCall (nnn : Addr12) (s : State) : Result :=
  orRaise (s.push (s.pc + 2)) fun t => .next (t.setPc (zext16 nnn))

/-- SkipIfEqByte (R115). -/
def execSkipIfEqByte (x : RegIdx) (kk : Byte) (s : State) : Result := s.skipIf (s.getV x == kk)

/-- SkipIfNotEqByte (R116). -/
def execSkipIfNotEqByte (x : RegIdx) (kk : Byte) (s : State) : Result := s.skipIf (s.getV x != kk)

/-- SkipIfEqReg (R117). -/
def execSkipIfEqReg (x y : RegIdx) (s : State) : Result := s.skipIf (s.getV x == s.getV y)

/-- SkipIfNotEqReg (R118): the opposite predicate of SkipIfEqReg (C3). -/
def execSkipIfNotEqReg (x y : RegIdx) (s : State) : Result := s.skipIf (s.getV x != s.getV y)

/-- JumpPlusV0 (R119): `pc <- (nnn + V[0]) mod 2^16`, not reduced to 12 bits (D9; log 11). -/
def execJumpPlusV0 (nnn : Addr12) (s : State) : Result := .next (s.setPc (zext16 nnn + zextByte (s.getV 0)))

end Sys2Proof.Machine
end

