-- ==== Sys2Proof/Machine/Display.lean ====
section
/-! DEFINITION. The display instructions (spec/44_display.md). -/

namespace Sys2Proof.Machine

/-- CLS (R171). -/
def execCls (s : State) : Result := { s with fb := fbClear }.done

/-- Draw (R172): the coordinates are read first, the whole sprite is range-checked and read, its set bits are XORed
onto the frame, and `VF` receives the collision last (D10; log 12). -/
def execDraw (x y : RegIdx) (n : Fin 16) (s : State) : Result :=
  orRaise (s.memRead s.base n.val) fun rows =>
    let canvas := plotRows (s.fb, false) (s.getV x).toNat (s.getV y).toNat rows
    ({ s with fb := canvas.1 }.setV vf (collisionFlag canvas.2)).done

end Sys2Proof.Machine
end

