-- ==== Sys2Proof/Machine/IndexMemory.lean ====
section
/-! DEFINITION. The index register and memory instructions (spec/43_index_memory.md). No access changes `I` (R150). -/

namespace Sys2Proof.Machine

/-- LoadIndex (R151). -/
def execLoadIndex (nnn : Addr12) (s : State) : Result := (s.setI (zext16 nnn)).done

/-- ADDRI (R152): wraps modulo 65536, no flag. -/
def execAddri (x : RegIdx) (s : State) : Result := (s.setI (s.I + zextByte (s.getV x))).done

/-- LDSI (R153): `I <- V[x] * 5`, `V[x]` not masked (C8). -/
def execLdsi (x : RegIdx) (s : State) : Result := (s.setI (zextByte (s.getV x) * 5)).done

/-- StoreBCD (R154): hundreds at `I`, tens at `I+1`, units at `I+2`. -/
def execStoreBCD (x : RegIdx) (s : State) : Result :=
  orRaise (s.memWrite s.base (bcdDigits (s.getV x))) State.done

/-- StoreRegs (R155): `V[0] .. V[x]` to `mem[I] .. mem[I+x]`. -/
def execStoreRegs (x : RegIdx) (s : State) : Result := orRaise (s.memWrite s.base (s.regsUpTo x)) State.done

/-- LoadRegs (R156): `mem[I] .. mem[I+x]` to `V[0] .. V[x]`. -/
def execLoadRegs (x : RegIdx) (s : State) : Result :=
  orRaise (s.memRead s.base (x.val + 1)) fun vs => (s.loadRegsUpTo x vs).done

end Sys2Proof.Machine
end

