-- ==== Sys2Proof/Machine/KeysTimers.lean ====
section
/-! DEFINITION. The key and timer instructions (spec/45_keys_timers.md). -/

namespace Sys2Proof.Machine

/-- SkipIfKey (R181). -/
def execSkipIfKey (x : RegIdx) (s : State) : Result := s.skipIf (s.keyMatch (s.getV x))

/-- SkipIfNotKey (R182): the negation of SkipIfKey. -/
def execSkipIfNotKey (x : RegIdx) (s : State) : Result := s.skipIf (!s.keyMatch (s.getV x))

/-- LDKR on entry (R183): the core waits; `pc` stays, nothing else is written, even with a key held (D11; log 13). -/
def execLdkr (x : RegIdx) (s : State) : Result := .next (s.setMode (.awaitingKey x))

/-- `LDKR_Resume(x)` (R183): a Step while AwaitingKey. Without a key nothing changes (D12; log 13); with one the
load, the return to Ready and the advance happen together. -/
def resumeLdkr (x : RegIdx) (s : State) : Result :=
  match s.key with
  | none => .next s
  | some k => ((s.setV x (zextKey k)).setMode .ready).done

/-- LoadDelay (R184; D28, log 24). -/
def execLoadDelay (x : RegIdx) (s : State) : Result := (s.setV x s.DT).done

/-- SetDelay (R185; D28, log 24). -/
def execSetDelay (x : RegIdx) (s : State) : Result := (s.setDT (s.getV x)).done

/-- SetSound (R186; D28, log 24). -/
def execSetSound (x : RegIdx) (s : State) : Result := (s.setST (s.getV x)).done

end Sys2Proof.Machine
end

