-- ==== Sys2Proof/Machine/Dispatch.lean ====
section
/-! DEFINITION. One arm per instruction of spec/30_encoding.md R75, in the opcode map's order. -/

namespace Sys2Proof.Machine

/-- The meaning of an instruction at a state whose `pc` is the instruction's own address (spec/40_cycle.md R91). -/
def exec (i : Instr) (s : State) : Host.Outcome State Fault Refusal :=
  match i with
  | .cls => Sys2Proof.Machine.execCls s
  | .ret => Sys2Proof.Machine.execRet s
  | .sys nnn => Sys2Proof.Machine.execSys nnn s
  | .jp nnn => Sys2Proof.Machine.execJp nnn s
  | .call nnn => Sys2Proof.Machine.execCall nnn s
  | .skipIfEqByte x kk => Sys2Proof.Machine.execSkipIfEqByte x kk s
  | .skipIfNotEqByte x kk => Sys2Proof.Machine.execSkipIfNotEqByte x kk s
  | .skipIfEqReg x y => Sys2Proof.Machine.execSkipIfEqReg x y s
  | .loadByte x kk => Sys2Proof.Machine.execLoadByte x kk s
  | .addByte x kk => Sys2Proof.Machine.execAddByte x kk s
  | .loadReg x y => Sys2Proof.Machine.execLoadReg x y s
  | .or x y => Sys2Proof.Machine.execOr x y s
  | .and x y => Sys2Proof.Machine.execAnd x y s
  | .xor x y => Sys2Proof.Machine.execXor x y s
  | .addReg x y => Sys2Proof.Machine.execAddReg x y s
  | .sub x y => Sys2Proof.Machine.execSub x y s
  | .shr x y => Sys2Proof.Machine.execShr x y s
  | .subn x y => Sys2Proof.Machine.execSubn x y s
  | .shl x y => Sys2Proof.Machine.execShl x y s
  | .skipIfNotEqReg x y => Sys2Proof.Machine.execSkipIfNotEqReg x y s
  | .loadIndex nnn => Sys2Proof.Machine.execLoadIndex nnn s
  | .jumpPlusV0 nnn => Sys2Proof.Machine.execJumpPlusV0 nnn s
  | .random x kk => Sys2Proof.Machine.execRandom x kk s
  | .draw x y n => Sys2Proof.Machine.execDraw x y n s
  | .skipIfKey x => Sys2Proof.Machine.execSkipIfKey x s
  | .skipIfNotKey x => Sys2Proof.Machine.execSkipIfNotKey x s
  | .loadDelay x => Sys2Proof.Machine.execLoadDelay x s
  | .ldkr x => Sys2Proof.Machine.execLdkr x s
  | .setDelay x => Sys2Proof.Machine.execSetDelay x s
  | .setSound x => Sys2Proof.Machine.execSetSound x s
  | .addri x => Sys2Proof.Machine.execAddri x s
  | .ldsi x => Sys2Proof.Machine.execLdsi x s
  | .storeBCD x => Sys2Proof.Machine.execStoreBCD x s
  | .storeRegs x => Sys2Proof.Machine.execStoreRegs x s
  | .loadRegs x => Sys2Proof.Machine.execLoadRegs x s

end Sys2Proof.Machine
end

