-- ==== Sys2Proof/Machine/Cycle.lean ====
section
/-! DEFINITION. The fetch and decode of a Step, the Step's returned value (spec/40_cycle.md R91, R93), and the placing of
one instruction word where the next Step fetches it. -/

namespace Sys2Proof.Machine

/-- Fetch (R91): `RangeCheck(pc, 2)`, then the big-endian word at `pc` (spec/20_memory.md R53, R54). -/
def State.fetchWord (s : State) : Except Fault Word :=
  match rangeError s.pc.toNat 2 with
  | some e => .error e
  | none => .ok (wordOfBytes (s.mem.read s.pc.toNat) (s.mem.read (s.pc.toNat + 1)))

/-- Decode a fetched word; no pattern is `DecodeError(w)` (R91, R200). -/
def decodeFetched (w : Word) : Except Fault Instr :=
  match decodeWord w with
  | .ok i => .ok i
  | .error _ => .error (.decodeError w)

/-- Fetch and decode, in the order of R91 and R204. -/
def State.fetchInstr (s : State) : Except Fault Instr :=
  match s.fetchWord with
  | .ok w => decodeFetched w
  | .error e => .error e

/-- A Step (R91): resume LDKR while AwaitingKey, without fetch or decode; else fetch, decode, execute. -/
def cycle (s : State) : Result :=
  match s.mode with
  | .awaitingKey x => resumeLdkr x s
  | .ready => orRaise s.fetchInstr fun i => exec i s

/-! ### What a Step returns to the host (R93) -/

/-- A Step's returned value (R93, D14; log 15). -/
inductive StepResult where
  /-- The instruction the Step completed. -/
  | executed (i : Instr)
  /-- LDKR was entered, or the core waits and no key is set. -/
  | waiting
  /-- The error that ended the Step; the state is unchanged (R202). -/
  | error (e : Fault)
  /-- Not the core's: the model gave the instruction no meaning. No instruction answers so. -/
  | notGiven (r : Refusal)
  deriving DecidableEq, Repr

/-- What is returned when an instruction was executed: its entry returns Waiting for LDKR (R91, R183). -/
def returnedBy (i : Instr) (r : Result) : StepResult :=
  match r with
  | .fault e => .error e
  | .refused r => .notGiven r
  | .next _ =>
    match i with
    | .ldkr _ => .waiting
    | _ => .executed i

/-- The value the Step from `s` returns (R93). -/
def stepResult (s : State) : StepResult :=
  match s.mode with
  | .awaitingKey x =>
    match s.key with
    | none => .waiting
    | some _ => .executed (.ldkr x)
  | .ready =>
    match s.fetchInstr with
    | .error e => .error e
    | .ok i => returnedBy i (exec i s)

/-! ### Placing an instruction word for the next Step -/

/-- `s` with a word stored where the next Step fetches: at `pc` when both bytes lie in memory, else `pc` is set to
0x200; and in mode Ready, since a Step that waits for a key fetches nothing (log 4). -/
def placeWord (s : State) (w : Word) : State :=
  let pc := if s.pc.toNat + 1 ≤ 0xFFF then s.pc else 0x200
  { s with pc := pc, mode := .ready, mem := s.mem.writeList pc.toNat [hiByte w, loByte w] }

end Sys2Proof.Machine
end

