-- ==== Sys2Proof/Machine/Step.lean ====
section
/-! DEFINITION. The host operation Step (spec/40_cycle.md R91) under the host's names. -/

namespace Sys2Proof.Machine

/-- Step (R91). The random input of the Step is `Config.draw8 s.draws` (R94; log 1). -/
def step (s : State) : Host.Outcome State Fault Refusal := cycle s

/-- `s` with the instruction whose bits are `w` stored where the next Step fetches it (log 4). -/
def State.withFetchWord (s : State) (nbits w : Nat) : State := placeWord s (tableWord nbits w)

end Sys2Proof.Machine
end

