-- ==== Sys2Proof/Machine/HostOps.lean ====
section
/-! DEFINITION. The host operations beside Step (spec/40_cycle.md R90, R96 to R98; spec/60_exceptions.md R210;
spec/70_reset_and_hazards.md R231, R232), and one function that runs any of the seven. -/

namespace Sys2Proof.Machine

/-- LoadRom (R232): AlreadyLoaded is tested before the size (D15; log 16); a failed load changes nothing. -/
def loadRom (rom : List Byte) (s : State) : Result :=
  if s.romLoaded then raise .alreadyLoaded
  else if rom.length > Config.romMax then raise .romTooLarge
  else .next { s with
    mem := s.mem.writeList Config.romBase rom
    pc := 0x200
    mode := .ready
    romLoaded := true }

/-- One timer's tick: down by 1, floored at 0 (R210). -/
def tickTimer (v : Byte) : Byte := if v.toNat > 0 then v - 1 else v

/-- TickTimers (R210): both timers, independently, in every mode (D24; log 21). -/
def tickTimers (s : State) : State := { s with DT := tickTimer s.DT, ST := tickTimer s.ST }

/-- SetKey (R96): the key and nothing else. -/
def setKey (k : Option Nibble) (s : State) : State := { s with key := k }

/-- ReadFramebuffer (R97): 2048 bytes, row-major, 1 for a set pixel (D17; log 17) and 0 for a clear one. -/
def readFramebuffer (s : State) : List Byte :=
  s.fb.toList.flatMap fun row => row.toList.map fun p => if p then 1 else 0

/-- ReadTimers (R98): (`DT`, `ST`). -/
def readTimers (s : State) : Byte × Byte := (s.DT, s.ST)

/-- Reset (R231): every field of the Machine State to its reset value (R33), whatever the state was. The font
parameter and the host's source of random bytes are no part of the Machine State (R35): the one keeps its value,
the other goes on (log 1, log 2). -/
def hostReset (s : State) : State :=
  { State.reset with mem := { font := s.mem.font, cells := [] }, draws := s.draws }

/-- The seven operations with their inputs (R90). The random input of a Step is the state's next draw (log 1). -/
inductive HostOp where
  | loadRom (rom : List Byte)
  | step
  | tickTimers
  | setKey (k : Option Nibble)
  | readFramebuffer
  | readTimers
  | reset
  deriving DecidableEq, Repr

/-- What an operation returns to the host (R90, R93, R97, R98). -/
inductive HostReply where
  /-- TickTimers, SetKey, Reset return nothing. -/
  | nothing
  /-- LoadRom succeeded: `Ok`. -/
  | ok
  /-- LoadRom failed. -/
  | loadError (e : Fault)
  | stepped (r : StepResult)
  | framebuffer (bytes : List Byte)
  | timers (DT ST : Byte)
  deriving DecidableEq, Repr

/-- The state an operation leaves: the next state, or, where it ends with an error, the state it began in (R202). -/
def stateAfter (s : State) (r : Result) : State :=
  match r with
  | .next t => t
  | .fault _ => s
  | .refused _ => s

/-- LoadRom's reply (R232). -/
def loadReply (r : Result) : HostReply :=
  match r with
  | .next _ => .ok
  | .fault e => .loadError e
  | .refused r => .stepped (.notGiven r)

/-- One host operation, an atomic transaction: its reply and the state after it (R90, R95). -/
def runHostOp (op : HostOp) (s : State) : HostReply × State :=
  match op with
  | .loadRom rom => (loadReply (Machine.loadRom rom s), stateAfter s (Machine.loadRom rom s))
  | .step => (.stepped (stepResult s), stateAfter s (Machine.step s))
  | .tickTimers => (.nothing, Machine.tickTimers s)
  | .setKey k => (.nothing, Machine.setKey k s)
  | .readFramebuffer => (.framebuffer (Machine.readFramebuffer s), s)
  | .readTimers => (.timers s.DT s.ST, s)
  | .reset => (.nothing, hostReset s)

/-- A schedule of operations, first to last: the state it leaves (R95). -/
def runSchedule : List HostOp → State → State
  | [], s => s
  | op :: ops, s => runSchedule ops (runHostOp op s).2

/-- R200's numeric code of an error (D14; log 15). -/
def Fault.code : Fault → Nat
  | .decodeError _ => 0
  | .stackOverflow => 1
  | .stackUnderflow => 2
  | .romTooLarge => 3
  | .alreadyLoaded => 4
  | .addressOutOfRange _ => 5

end Sys2Proof.Machine
end

