-- ==== Sys2Proof/Safety.lean ====
section
/-! DEFINITION. What counts as a safe run: the states a host can bring the core into, and Steps that report no
error (spec/40_cycle.md R95, R100, R101; spec/93_implementation_defined.md part 1). -/

namespace Sys2Proof.Safety

open Sys2Proof.Machine

/-- A state some schedule of host operations reaches from creation (R95, R230), for some font and some place in
the host's random bytes (log 1, log 2). -/
def Reachable (s : State) : Prop :=
  ∃ (font : Config.FontRom) (k : Nat) (ops : List HostOp),
    s = runSchedule ops { State.reset with mem := { font := font, cells := [] }, draws := k }

/-- The Step from `s` ends with no error: a claim must rule an error out or account for it (93, treatment `fault`). -/
def StepSafe (s : State) : Prop := ∃ t, step s = .next t

/-- The Step from `s` changes nothing and reports no error: the core makes no progress (R101; treatment `stuck`). -/
def Stuck (s : State) : Prop := step s = .next s

/-- The first `k` Steps, with no other host operation between them, end with no error. -/
def RunSafe (k : Nat) (s : State) : Prop := ∃ t, Sys2Proof.core.run k s = .next t

end Sys2Proof.Safety
end

