-- ==== Sys2Proof/Certificates/Slice0/Obligations.lean ====
section
/-! DEFINITION. The statements about the model, from the numbered rules of spec/. A statement that rests on one of the
spec's own decisions (92_eei_decisions.md), on general knowledge the spec marks, or on an entry of the assumption log
says so in its docstring and has basis `derived`. The helpers of `Sys2Proof.Claims` are the statements' vocabulary,
written apart from the model's own operations. -/

open Sys2Proof Sys2Proof.Machine

/-! ### Vocabulary -/

namespace Sys2Proof.Claims

/-- The parts of the state: R32's list, memory told apart from the font parameter (log 2), and the model's count of
draws (log 1). -/
inductive Part where
  | V | I | pc | stack | sp | DT | ST | mem | font | key | fb | mode | romLoaded | draws
  deriving DecidableEq, Repr

/-- The part is the same before and after; memory is compared byte by byte, the registers one by one. -/
def SamePart (s t : State) : Part → Prop
  | .V => ∀ i, t.getV i = s.getV i
  | .I => t.I = s.I
  | .pc => t.pc = s.pc
  | .stack => t.stack = s.stack
  | .sp => t.sp = s.sp
  | .DT => t.DT = s.DT
  | .ST => t.ST = s.ST
  | .mem => ∀ a, t.mem.read a = s.mem.read a
  | .font => t.mem.font = s.mem.font
  | .key => t.key = s.key
  | .fb => t.fb = s.fb
  | .mode => t.mode = s.mode
  | .romLoaded => t.romLoaded = s.romLoaded
  | .draws => t.draws = s.draws

/-- The frame: every part but the listed ones is unchanged. -/
def SameBut (changed : List Part) (s t : State) : Prop := ∀ p, p ∉ changed → SamePart s t p

/-- Every register but the listed ones is unchanged. -/
def OtherRegs (written : List RegIdx) (s t : State) : Prop := ∀ j, j ∉ written → t.getV j = s.getV j

/-- `pc` moved `k` bytes on, wherever the sum fits in 16 bits. (What it is past the top of the 16-bit range is the
spec's own decision D9, stated apart in PcAfterEachInstruction.) -/
def Advances (s t : State) (k : Nat) : Prop := s.pc.toNat + k < 0x10000 → t.pc.toNat = s.pc.toNat + k

/-- The word with this number decodes to the instruction. -/
def IsWordOf (n : Nat) (i : Instr) : Prop := decodeWord (BitVec.ofNat 16 n) = .ok i

/-- The words of R76's table. -/
def Illegal (w : Word) : Prop :=
  let n0 := w.toNat / 0x1000
  let n := w.toNat % 0x10
  let kk := w.toNat % 0x100
  (n0 = 0x5 ∧ n ≠ 0) ∨ (n0 = 0x8 ∧ n ∈ [0x8, 0x9, 0xA, 0xB, 0xC, 0xD, 0xF]) ∨ (n0 = 0x9 ∧ n ≠ 0) ∨
  (n0 = 0xE ∧ kk ∉ [0x9E, 0xA1]) ∨ (n0 = 0xF ∧ kk ∉ [0x07, 0x0A, 0x15, 0x18, 0x1E, 0x29, 0x33, 0x55, 0x65])

/-- The big-endian word at an address (20_memory.md R53). -/
def wordAt (s : State) (a : Nat) : Word :=
  BitVec.ofNat 16 ((s.mem.read a).toNat * 256 + (s.mem.read (a + 1)).toNat)

/-- The sprite of `n` rows at `mem[I]` with its top-left corner at `(px, py)` has a set bit at `(X, Y)`: row `Y - py`,
column `X - px`, the most significant bit leftmost (44_display.md R172). -/
def SpriteBit (s : State) (px py n X Y : Nat) : Prop :=
  px ≤ X ∧ X < px + 8 ∧ py ≤ Y ∧ Y < py + n ∧ (s.mem.read (s.base + (Y - py))).getLsbD (7 - (X - px)) = true

/-- Draw `Dxyn` sets or unsets the pixel `(X, Y)`. -/
def Drawn (s : State) (x y : RegIdx) (n : Fin 16) (X Y : Nat) : Prop :=
  SpriteBit s (s.getV x).toNat (s.getV y).toNat n.val X Y

/-- How many bytes at `I` an instruction reads or writes (20_memory.md R55). -/
def dataBytes : Instr → Nat
  | .draw _ _ n => n.val
  | .storeBCD _ => 3
  | .storeRegs x => x.val + 1
  | .loadRegs x => x.val + 1
  | _ => 0

/-- The skip instructions (40_cycle.md R92). -/
def isSkip : Instr → Bool
  | .skipIfEqByte _ _ | .skipIfNotEqByte _ _ | .skipIfEqReg _ _ | .skipIfNotEqReg _ _ => true
  | .skipIfKey _ | .skipIfNotKey _ => true
  | _ => false

/-- The instructions that assign `pc` a target (40_cycle.md R92). -/
def isTransfer : Instr → Bool
  | .jp _ | .call _ | .jumpPlusV0 _ | .ret => true
  | _ => false

/-- LDKR, whose entry leaves `pc` alone (40_cycle.md R92). -/
def isLdkr : Instr → Bool
  | .ldkr _ => true
  | _ => false

/-- The instructions that write `VF` as a flag output (10_state.md R22). -/
def writesFlag : Instr → Bool
  | .addReg _ _ | .sub _ _ | .shr _ _ | .subn _ _ | .shl _ _ | .draw _ _ _ => true
  | _ => false

/-- The registers an instruction writes as destination (10_state.md R21). -/
def writesReg : Instr → RegIdx → Bool
  | .loadByte x _, j | .addByte x _, j | .random x _, j => j == x
  | .loadReg x _, j | .or x _, j | .and x _, j | .xor x _, j => j == x
  | .addReg x _, j | .sub x _, j | .shr x _, j | .shl x _, j => j == x
  | .subn _ y, j => j == y
  | .loadDelay x, j => j == x
  | .loadRegs x, j => decide (j ≤ x)
  | _, _ => false

/-- Apply a change to the next state, if there is one. -/
def mapNext (f : State → State) : Result → Result
  | .next t => .next (f t)
  | .fault e => .fault e
  | .refused r => .refused r

/-- Bounds every run keeps (40_cycle.md R92): no `pc` above 0x10FE, no return address above 0x1000, and a wait only
at an address an instruction was fetched from. -/
def PcBounded (s : State) : Prop :=
  s.pc.toNat ≤ 0x10FE ∧ (∀ j : Fin 16, (s.stack[j.val]).toNat ≤ 0x1000) ∧
  (∀ x, s.mode = .awaitingKey x → s.pc.toNat ≤ 0xFFE)

end Sys2Proof.Claims

open Sys2Proof.Claims

/-! ### Encoding (30_encoding.md) -/

/-- Decoding the word of a well-formed instruction gives it back, every field at every value (R79, a rule the spec
derives). -/
def Obligations.DecodeOfEncode : Prop :=
  ∀ i : Instr, i.wf = true → decodeWord (encode i) = .ok i

/-- Encoding a decoded word gives the word back, and a decoded instruction is well-formed (R79, a rule the spec
derives). -/
def Obligations.EncodeOfDecode : Prop :=
  ∀ (w : Word) (i : Instr), decodeWord w = .ok i → encode i = w ∧ i.wf = true

/-- The decoder and the opcode table agree: a word that decodes fits exactly one row, its instruction's; a word that
does not decode fits none (R74, R75, opcode_table.json). -/
def Obligations.DecoderAgreesWithOpcodeTable : Prop :=
  ∀ w : Word, tableMnemonics w = match decodeWord w with
    | .ok i => [i.mnemonic]
    | .error _ => []

/-- R74: what each word decodes to, and that exactly the other words are rejected, by name. -/
def Obligations.DecoderIsTheDispatch : Prop :=
  IsWordOf 0x00E0 .cls ∧ IsWordOf 0x00EE .ret ∧
  (∀ nnn : Addr12, nnn ≠ 0x0E0 → nnn ≠ 0x0EE → IsWordOf nnn.toNat (.sys nnn)) ∧
  (∀ nnn : Addr12, IsWordOf (0x1000 + nnn.toNat) (.jp nnn) ∧ IsWordOf (0x2000 + nnn.toNat) (.call nnn) ∧
    IsWordOf (0xA000 + nnn.toNat) (.loadIndex nnn) ∧ IsWordOf (0xB000 + nnn.toNat) (.jumpPlusV0 nnn)) ∧
  (∀ (x : RegIdx) (kk : Byte), let r := 0x100 * x.val + kk.toNat
    IsWordOf (0x3000 + r) (.skipIfEqByte x kk) ∧ IsWordOf (0x4000 + r) (.skipIfNotEqByte x kk) ∧
    IsWordOf (0x6000 + r) (.loadByte x kk) ∧ IsWordOf (0x7000 + r) (.addByte x kk) ∧
    IsWordOf (0xC000 + r) (.random x kk)) ∧
  (∀ x y : RegIdx, let r := 0x100 * x.val + 0x10 * y.val
    IsWordOf (0x5000 + r) (.skipIfEqReg x y) ∧ IsWordOf (0x9000 + r) (.skipIfNotEqReg x y) ∧
    IsWordOf (0x8000 + r) (.loadReg x y) ∧ IsWordOf (0x8001 + r) (.or x y) ∧ IsWordOf (0x8002 + r) (.and x y) ∧
    IsWordOf (0x8003 + r) (.xor x y) ∧ IsWordOf (0x8004 + r) (.addReg x y) ∧ IsWordOf (0x8005 + r) (.sub x y) ∧
    IsWordOf (0x8006 + r) (.shr x y) ∧ IsWordOf (0x8007 + r) (.subn x y) ∧ IsWordOf (0x800E + r) (.shl x y) ∧
    ∀ n : Fin 16, IsWordOf (0xD000 + r + n.val) (.draw x y n)) ∧
  (∀ x : RegIdx, let r := 0x100 * x.val
    IsWordOf (0xE09E + r) (.skipIfKey x) ∧ IsWordOf (0xE0A1 + r) (.skipIfNotKey x) ∧
    IsWordOf (0xF007 + r) (.loadDelay x) ∧ IsWordOf (0xF00A + r) (.ldkr x) ∧ IsWordOf (0xF015 + r) (.setDelay x) ∧
    IsWordOf (0xF018 + r) (.setSound x) ∧ IsWordOf (0xF01E + r) (.addri x) ∧ IsWordOf (0xF029 + r) (.ldsi x) ∧
    IsWordOf (0xF033 + r) (.storeBCD x) ∧ IsWordOf (0xF055 + r) (.storeRegs x) ∧ IsWordOf (0xF065 + r) (.loadRegs x)) ∧
  (∀ w : Word, decodeWord w = .error (.noPattern w) ↔ Illegal w) ∧
  (∀ w : Word, Illegal w ∨ ∃ i, decodeWord w = .ok i)

/-- A few words the spec writes out decode to the instructions it names (95_test_vectors.md sections 1.1, 2.1, 2.3, 2.5,
2.6). -/
def Obligations.SampleWordsDecode : Prop :=
  decodeWord 0x6A0C#16 = .ok (.loadByte 0xA 0x0C) ∧ decodeWord 0xA2F0#16 = .ok (.loadIndex 0x2F0) ∧
  decodeWord 0x00E1#16 = .ok (.sys 0x0E1) ∧ decodeWord 0x81F7#16 = .ok (.subn 1 15) ∧
  decodeWord 0xD012#16 = .ok (.draw 0 1 2) ∧ decodeWord 0xF333#16 = .ok (.storeBCD 3) ∧
  decodeWord 0xE1A1#16 = .ok (.skipIfNotKey 1) ∧ decodeWord 0xF418#16 = .ok (.setSound 4) ∧
  decodeWord 0x8128#16 = .error (.noPattern 0x8128)

/-! ### The cycle (40_cycle.md) -/

/-- In mode Ready, when the bytes at `pc` lie in memory and decode to an instruction, the Step is its execution at
that state; nothing is added around it (R91; the condition on `pc` is the fetch's range check, D6). -/
def Obligations.StepRunsTheDecodedInstruction : Prop :=
  ∀ (s : State) (i : Instr), s.mode = .ready → s.pc.toNat + 1 ≤ 0xFFF →
    decodeWord (wordAt s s.pc.toNat) = .ok i → step s = exec i s

/-- When a Step ends before any instruction runs: in mode Ready, past the end of memory with AddressOutOfRange, else
on an illegal word with DecodeError of that word; while AwaitingKey it never fails (R91, R204; the spec's decisions
D6 and D27). -/
def Obligations.StepFailsBeforeExecution : Prop :=
  ∀ s : State,
    (s.mode = .ready → 0xFFF < s.pc.toNat + 1 → step s = .fault (.addressOutOfRange (max s.pc.toNat 0x1000))) ∧
    (s.mode = .ready → s.pc.toNat + 1 ≤ 0xFFF → Illegal (wordAt s s.pc.toNat) →
      step s = .fault (.decodeError (wordAt s s.pc.toNat))) ∧
    (∀ x, s.mode = .awaitingKey x → ∃ t, step s = .next t)

/-- R92's table of the new `pc`, the wrap modulo 2^16 included (the spec's decision D9). The targets of the
transfers of control are stated with each of them. -/
def Obligations.PcAfterEachInstruction : Prop :=
  ∀ (i : Instr) (s t : State), exec i s = .next t →
    (isSkip i = true → t.pc.toNat = (s.pc.toNat + 4) % 0x10000 ∨ t.pc.toNat = (s.pc.toNat + 2) % 0x10000) ∧
    (isLdkr i = true → t.pc = s.pc) ∧
    (isSkip i = false → isTransfer i = false → isLdkr i = false → t.pc.toNat = (s.pc.toNat + 2) % 0x10000)

/-- What a Step returns (R93): the instruction it completed, Waiting exactly when LDKR was entered or no key is set,
or the error it ended with (the spec's decisions D11, D12, D14). -/
def Obligations.StepReturnsItsResult : Prop :=
  ∀ s : State,
    (∀ e, step s = .fault e ↔ stepResult s = .error e) ∧
    (stepResult s = .waiting ↔
      (∃ x, s.mode = .awaitingKey x ∧ s.key = none) ∨ (∃ x, s.mode = .ready ∧ s.fetchInstr = .ok (.ldkr x))) ∧
    (∀ i, stepResult s = .executed i ↔
      (∃ x k, i = .ldkr x ∧ s.mode = .awaitingKey x ∧ s.key = some k) ∨
      (s.mode = .ready ∧ s.fetchInstr = .ok i ∧ isLdkr i = false ∧ ∃ t, exec i s = .next t))

/-- Which instructions fail, how and when: CALL, RET, and the four that access memory at `I`; none is refused
(R200, R204; the spec's decisions D2 and D6). -/
def Obligations.OnlyTheseInstructionsFail : Prop :=
  (∀ (i : Instr) (s : State) (e : Fault), exec i s = .fault e →
    (∃ nnn, i = .call nnn ∧ e = .stackOverflow ∧ s.sp.val = 16) ∨
    (i = .ret ∧ e = .stackUnderflow ∧ s.sp.val = 0) ∨
    (0 < dataBytes i ∧ 0x1000 < s.base + dataBytes i ∧ e = .addressOutOfRange (max s.base 0x1000))) ∧
  (∀ (i : Instr) (s : State) (r : Refusal), exec i s ≠ .refused r)

/-! ### Control flow (41_control_flow.md) -/

/-- R111: SYS changes nothing but `pc`, whatever `nnn`. -/
def Obligations.SysIsANoOp : Prop :=
  ∀ (nnn : Addr12) (s : State), (nnn ≠ 0x0E0 → nnn ≠ 0x0EE → IsWordOf nnn.toNat (.sys nnn)) ∧
    ∃ t, exec (.sys nnn) s = .next t ∧ Advances s t 2 ∧ SameBut [.pc] s t

/-- RET pops the most recent return address into `pc`; with an empty stack it ends with StackUnderflow (R112; the
slot is the spec's decision D2, the absolute assignment of what CALL pushed its decision D3). -/
def Obligations.RetPopsIntoPc : Prop :=
  ∀ s : State, IsWordOf 0x00EE .ret ∧
    (∀ _ : 0 < s.sp.val, ∃ t, exec .ret s = .next t ∧ t.sp.val = s.sp.val - 1 ∧
      t.pc = s.stack[s.sp.val - 1]'(by have := s.sp.isLt; omega) ∧ SameBut [.pc, .sp] s t) ∧
    (s.sp.val = 0 → exec .ret s = .fault .stackUnderflow)

/-- R113: JP sets `pc` to the address and changes nothing else; a jump to itself changes nothing at all. -/
def Obligations.JpSetsPc : Prop :=
  ∀ (nnn : Addr12) (s : State), IsWordOf (0x1000 + nnn.toNat) (.jp nnn) ∧
    ∃ t, exec (.jp nnn) s = .next t ∧ t.pc.toNat = nnn.toNat ∧ SameBut [.pc] s t ∧ (nnn.toNat = s.pc.toNat → t = s)

/-- CALL pushes the address of the next instruction and jumps; with 16 entries it ends with StackOverflow (R114; the
slot is the spec's decision D2, the pushed value its decision D3). -/
def Obligations.CallPushesAndJumps : Prop :=
  ∀ (nnn : Addr12) (s : State), IsWordOf (0x2000 + nnn.toNat) (.call nnn) ∧
    (s.sp.val < 16 → ∃ t, exec (.call nnn) s = .next t ∧ t.pc.toNat = nnn.toNat ∧ t.sp.val = s.sp.val + 1 ∧
      (∀ j : Fin 16, (t.stack[j.val]).toNat =
        if j.val = s.sp.val then (s.pc.toNat + 2) % 0x10000 else (s.stack[j.val]).toNat) ∧
      SameBut [.pc, .sp, .stack] s t) ∧
    (s.sp.val = 16 → exec (.call nnn) s = .fault .stackOverflow)

/-- R115, R116: the skips on a byte, with opposite conditions. -/
def Obligations.ByteSkips : Prop :=
  ∀ (x : RegIdx) (kk : Byte) (s : State),
    IsWordOf (0x3000 + 0x100 * x.val + kk.toNat) (.skipIfEqByte x kk) ∧
    IsWordOf (0x4000 + 0x100 * x.val + kk.toNat) (.skipIfNotEqByte x kk) ∧
    (∃ t, exec (.skipIfEqByte x kk) s = .next t ∧ Advances s t (if s.getV x = kk then 4 else 2) ∧
      SameBut [.pc] s t) ∧
    (∃ t, exec (.skipIfNotEqByte x kk) s = .next t ∧ Advances s t (if s.getV x = kk then 2 else 4) ∧
      SameBut [.pc] s t)

/-- R117, R118: the skips on two registers, with opposite conditions; the other words of their groups do not
decode. -/
def Obligations.RegisterSkips : Prop :=
  ∀ (x y : RegIdx) (s : State),
    IsWordOf (0x5000 + 0x100 * x.val + 0x10 * y.val) (.skipIfEqReg x y) ∧
    IsWordOf (0x9000 + 0x100 * x.val + 0x10 * y.val) (.skipIfNotEqReg x y) ∧
    (∀ (n : Fin 16) (op : Nat), n ≠ 0 → op = 0x5000 ∨ op = 0x9000 →
      let w : Word := BitVec.ofNat 16 (op + 0x100 * x.val + 0x10 * y.val + n.val)
      decodeWord w = .error (.noPattern w)) ∧
    (∃ t, exec (.skipIfEqReg x y) s = .next t ∧ Advances s t (if s.getV x = s.getV y then 4 else 2) ∧
      SameBut [.pc] s t) ∧
    (∃ t, exec (.skipIfNotEqReg x y) s = .next t ∧ Advances s t (if s.getV x = s.getV y then 2 else 4) ∧
      SameBut [.pc] s t)

/-- JumpPlusV0 sets `pc` to `nnn + V[0]`, not reduced to 12 bits (R119; the formula is read from the name, the width
is the spec's decision D9). -/
def Obligations.JumpPlusV0AddsV0 : Prop :=
  ∀ (nnn : Addr12) (s : State), IsWordOf (0xB000 + nnn.toNat) (.jumpPlusV0 nnn) ∧
    ∃ t, exec (.jumpPlusV0 nnn) s = .next t ∧ t.pc.toNat = nnn.toNat + (s.getV 0).toNat ∧ SameBut [.pc] s t

/-- CALL then RET: `pc` is the address after the CALL and the depth is as before, whatever ran in between without
touching the stack (R112, R114, the source's scenario S4; the spec's decisions D2 and D3). -/
def Obligations.RetReturnsAfterCall : Prop :=
  ∀ (nnn : Addr12) (s t u : State), exec (.call nnn) s = .next t → u.stack = t.stack → u.sp = t.sp →
    ∃ v, exec .ret u = .next v ∧ v.pc.toNat = (s.pc.toNat + 2) % 0x10000 ∧ v.sp = s.sp ∧ SameBut [.pc, .sp] u v

/-! ### Registers and arithmetic (42_alu.md) -/

/-- R132: LoadByte. -/
def Obligations.LoadByteLoads : Prop :=
  ∀ (x : RegIdx) (kk : Byte) (s : State), IsWordOf (0x6000 + 0x100 * x.val + kk.toNat) (.loadByte x kk) ∧
    ∃ t, exec (.loadByte x kk) s = .next t ∧ t.getV x = kk ∧ OtherRegs [x] s t ∧ Advances s t 2 ∧
      SameBut [.V, .pc] s t

/-- AddByte adds modulo 256 and writes no flag (R133; no flag is the spec's decision D5); applied twice with `b` it
leaves the registers that once with `2b mod 256` leaves (the source's law P-a). -/
def Obligations.AddByteWraps : Prop :=
  ∀ (x : RegIdx) (kk : Byte) (s : State), IsWordOf (0x7000 + 0x100 * x.val + kk.toNat) (.addByte x kk) ∧
    ∃ t, exec (.addByte x kk) s = .next t ∧ (t.getV x).toNat = ((s.getV x).toNat + kk.toNat) % 256 ∧
      OtherRegs [x] s t ∧ Advances s t 2 ∧ SameBut [.V, .pc] s t ∧
      ∃ u w, exec (.addByte x kk) t = .next u ∧ exec (.addByte x (BitVec.ofNat 8 (2 * kk.toNat))) s = .next w ∧
        ∀ j, u.getV j = w.getV j

/-- LoadReg copies `V[y]` into `V[x]` (R134; the direction is general knowledge the spec marks, D28, log 24). -/
def Obligations.LoadRegCopies : Prop :=
  ∀ (x y : RegIdx) (s : State), IsWordOf (0x8000 + 0x100 * x.val + 0x10 * y.val) (.loadReg x y) ∧
    ∃ t, exec (.loadReg x y) s = .next t ∧ t.getV x = s.getV y ∧ OtherRegs [x] s t ∧ Advances s t 2 ∧
      SameBut [.V, .pc] s t

/-- Or, And, Xor, bit by bit, with no flag (R135 to R137; no flag is the spec's decision D5). -/
def Obligations.BitwiseOps : Prop :=
  ∀ (x y : RegIdx) (s : State),
    IsWordOf (0x8001 + 0x100 * x.val + 0x10 * y.val) (.or x y) ∧
    IsWordOf (0x8002 + 0x100 * x.val + 0x10 * y.val) (.and x y) ∧
    IsWordOf (0x8003 + 0x100 * x.val + 0x10 * y.val) (.xor x y) ∧
    (∃ t, exec (.or x y) s = .next t ∧
      (∀ k, (t.getV x).getLsbD k = ((s.getV x).getLsbD k || (s.getV y).getLsbD k)) ∧
      OtherRegs [x] s t ∧ Advances s t 2 ∧ SameBut [.V, .pc] s t) ∧
    (∃ t, exec (.and x y) s = .next t ∧
      (∀ k, (t.getV x).getLsbD k = ((s.getV x).getLsbD k && (s.getV y).getLsbD k)) ∧
      OtherRegs [x] s t ∧ Advances s t 2 ∧ SameBut [.V, .pc] s t) ∧
    (∃ t, exec (.xor x y) s = .next t ∧
      (∀ k, (t.getV x).getLsbD k = ((s.getV x).getLsbD k ^^ (s.getV y).getLsbD k)) ∧
      OtherRegs [x] s t ∧ Advances s t 2 ∧ SameBut [.V, .pc] s t)

/-- AddReg: the sum modulo 256 in `V[x]`, the carry in `VF`, the carry alone when `x` is `VF` (R138; that order is
the spec's decision D4). -/
def Obligations.AddRegSumAndCarry : Prop :=
  ∀ (x y : RegIdx) (s : State), IsWordOf (0x8004 + 0x100 * x.val + 0x10 * y.val) (.addReg x y) ∧
    ∃ t, exec (.addReg x y) s = .next t ∧
      (x ≠ 15 → (t.getV x).toNat = ((s.getV x).toNat + (s.getV y).toNat) % 256) ∧
      (t.getV 15).toNat = (if (s.getV x).toNat + (s.getV y).toNat > 255 then 1 else 0) ∧
      OtherRegs [x, 15] s t ∧ Advances s t 2 ∧ SameBut [.V, .pc] s t

/-- Sub: `V[x] - V[y]` modulo 256 in `V[x]`, 1 in `VF` exactly when `V[x] > V[y]` (R139; the order of the two writes
is the spec's decision D4). -/
def Obligations.SubDifferenceAndFlag : Prop :=
  ∀ (x y : RegIdx) (s : State), IsWordOf (0x8005 + 0x100 * x.val + 0x10 * y.val) (.sub x y) ∧
    ∃ t, exec (.sub x y) s = .next t ∧
      (x ≠ 15 → ((t.getV x).toNat : Int) = (((s.getV x).toNat : Int) - (s.getV y).toNat) % 256) ∧
      (t.getV 15).toNat = (if (s.getV x).toNat > (s.getV y).toNat then 1 else 0) ∧
      OtherRegs [x, 15] s t ∧ Advances s t 2 ∧ SameBut [.V, .pc] s t

/-- Subn: `V[y] - V[x]` modulo 256 in `V[y]`, not `V[x]`; 1 in `VF` exactly when `V[y] > V[x]` (R141; the order of the
two writes is the spec's decision D4). -/
def Obligations.SubnWritesVy : Prop :=
  ∀ (x y : RegIdx) (s : State), IsWordOf (0x8007 + 0x100 * x.val + 0x10 * y.val) (.subn x y) ∧
    ∃ t, exec (.subn x y) s = .next t ∧
      (y ≠ 15 → ((t.getV y).toNat : Int) = (((s.getV y).toNat : Int) - (s.getV x).toNat) % 256) ∧
      (t.getV 15).toNat = (if (s.getV y).toNat > (s.getV x).toNat then 1 else 0) ∧
      OtherRegs [y, 15] s t ∧ Advances s t 2 ∧ SameBut [.V, .pc] s t

/-- Shr and Shl by one, the bit shifted out in `VF`, `V[y]` not read (R140, R142; the spec's decisions D4 and D29). -/
def Obligations.ShiftsByOne : Prop :=
  ∀ (x y : RegIdx) (s : State),
    IsWordOf (0x8006 + 0x100 * x.val + 0x10 * y.val) (.shr x y) ∧
    IsWordOf (0x800E + 0x100 * x.val + 0x10 * y.val) (.shl x y) ∧
    (∃ t, exec (.shr x y) s = .next t ∧ (x ≠ 15 → (t.getV x).toNat = (s.getV x).toNat / 2) ∧
      (t.getV 15).toNat = (s.getV x).toNat % 2 ∧
      OtherRegs [x, 15] s t ∧ Advances s t 2 ∧ SameBut [.V, .pc] s t ∧
      ∀ (r : RegIdx) (v : Byte), r ≠ x → r ≠ 15 → ∃ u, exec (.shr x y) (s.setV r v) = .next u ∧ OtherRegs [r] t u) ∧
    (∃ t, exec (.shl x y) s = .next t ∧ (x ≠ 15 → (t.getV x).toNat = 2 * (s.getV x).toNat % 256) ∧
      (t.getV 15).toNat = (s.getV x).toNat / 128 ∧
      OtherRegs [x, 15] s t ∧ Advances s t 2 ∧ SameBut [.V, .pc] s t ∧
      ∀ (r : RegIdx) (v : Byte), r ≠ x → r ≠ 15 → ∃ u, exec (.shl x y) (s.setV r v) = .next u ∧ OtherRegs [r] t u)

/-- Random writes the Step's random byte under the mask, whatever that byte is: it is a free value, the opaque
constant `Config.draw8` at the state's own count (R143, R94; D21, log 1), and no bit outside the mask is set. -/
def Obligations.RandomIsMasked : Prop :=
  ∀ (x : RegIdx) (kk : Byte) (s : State), IsWordOf (0xC000 + 0x100 * x.val + kk.toNat) (.random x kk) ∧
    ∃ t, exec (.random x kk) s = .next t ∧ t.getV x = kk &&& Config.draw8 s.draws ∧ t.getV x &&& ~~~kk = 0 ∧
      t.draws = s.draws + 1 ∧ OtherRegs [x] s t ∧ Advances s t 2 ∧ SameBut [.V, .pc, .draws] s t

/-! ### Index register and memory (43_index_memory.md) -/

/-- R151: LoadIndex. -/
def Obligations.LoadIndexLoads : Prop :=
  ∀ (nnn : Addr12) (s : State), IsWordOf (0xA000 + nnn.toNat) (.loadIndex nnn) ∧
    ∃ t, exec (.loadIndex nnn) s = .next t ∧ t.I.toNat = nnn.toNat ∧ Advances s t 2 ∧ SameBut [.I, .pc] s t

/-- R152: ADDRI wraps modulo 65536, not 4096, and leaves every register alone, `VF` too. -/
def Obligations.AddriWrapsAt16Bits : Prop :=
  ∀ (x : RegIdx) (s : State), IsWordOf (0xF01E + 0x100 * x.val) (.addri x) ∧
    ∃ t, exec (.addri x) s = .next t ∧ t.I.toNat = (s.I.toNat + (s.getV x).toNat) % 65536 ∧ Advances s t 2 ∧
      SameBut [.I, .pc] s t

/-- R153: LDSI sets `I` to `V[x] * 5`, with no masking of `V[x]`. -/
def Obligations.LdsiIsFiveTimesVx : Prop :=
  ∀ (x : RegIdx) (s : State), IsWordOf (0xF029 + 0x100 * x.val) (.ldsi x) ∧
    ∃ t, exec (.ldsi x) s = .next t ∧ t.I.toNat = (s.getV x).toNat * 5 ∧ Advances s t 2 ∧ SameBut [.I, .pc] s t

/-- StoreBCD: hundreds, tens and units at `I`, `I+1`, `I+2`, no other byte written; past 0xFFF it ends with
AddressOutOfRange (R154; that error is the spec's decision D6). -/
def Obligations.StoreBcdDigits : Prop :=
  ∀ (x : RegIdx) (s : State), IsWordOf (0xF033 + 0x100 * x.val) (.storeBCD x) ∧
    (s.base + 2 ≤ 0xFFF → ∃ t, exec (.storeBCD x) s = .next t ∧
      (t.mem.read s.base).toNat = (s.getV x).toNat / 100 ∧
      (t.mem.read (s.base + 1)).toNat = (s.getV x).toNat / 10 % 10 ∧
      (t.mem.read (s.base + 2)).toNat = (s.getV x).toNat % 10 ∧
      (∀ a, a < s.base ∨ s.base + 3 ≤ a → t.mem.read a = s.mem.read a) ∧
      Advances s t 2 ∧ SameBut [.mem, .pc] s t) ∧
    (0xFFF < s.base + 2 → exec (.storeBCD x) s = .fault (.addressOutOfRange (max s.base 0x1000)))

/-- StoreRegs: `V[0] .. V[x]` at `I .. I+x`, no other byte written, `I` unchanged; past 0xFFF it ends with
AddressOutOfRange (R155; that error is the spec's decision D6). -/
def Obligations.StoreRegsStores : Prop :=
  ∀ (x : RegIdx) (s : State), IsWordOf (0xF055 + 0x100 * x.val) (.storeRegs x) ∧
    (s.base + x.val ≤ 0xFFF → ∃ t, exec (.storeRegs x) s = .next t ∧
      (∀ i : RegIdx, i ≤ x → t.mem.read (s.base + i.val) = s.getV i) ∧
      (∀ a, a < s.base ∨ s.base + x.val + 1 ≤ a → t.mem.read a = s.mem.read a) ∧
      Advances s t 2 ∧ SameBut [.mem, .pc] s t) ∧
    (0xFFF < s.base + x.val → exec (.storeRegs x) s = .fault (.addressOutOfRange (max s.base 0x1000)))

/-- LoadRegs: `V[0] .. V[x]` from `I .. I+x`, the registers above `x` and `I` unchanged; past 0xFFF it ends with
AddressOutOfRange (R156; that error is the spec's decision D6). -/
def Obligations.LoadRegsLoads : Prop :=
  ∀ (x : RegIdx) (s : State), IsWordOf (0xF065 + 0x100 * x.val) (.loadRegs x) ∧
    (s.base + x.val ≤ 0xFFF → ∃ t, exec (.loadRegs x) s = .next t ∧
      (∀ i : RegIdx, t.getV i = if i ≤ x then s.mem.read (s.base + i.val) else s.getV i) ∧
      Advances s t 2 ∧ SameBut [.V, .pc] s t) ∧
    (0xFFF < s.base + x.val → exec (.loadRegs x) s = .fault (.addressOutOfRange (max s.base 0x1000)))

/-- What StoreRegs stored, LoadRegs loads back, in any later state with that memory and `I` (R58, R155, R156). -/
def Obligations.LoadRegsUndoesStoreRegs : Prop :=
  ∀ (x : RegIdx) (s t u : State), exec (.storeRegs x) s = .next t → (∀ a, u.mem.read a = t.mem.read a) → u.I = s.I →
    ∃ v, exec (.loadRegs x) u = .next v ∧ ∀ i : RegIdx, i ≤ x → v.getV i = s.getV i

/-- A store is seen by the next fetch of its address (R60, R237, rules the spec derives): after StoreRegs the word at
`I` is `V[0]` and `V[1]`, big-endian, and it is what a Step at `I` decodes and runs. -/
def Obligations.StoredInstructionRuns : Prop :=
  ∀ (x : RegIdx) (s t : State) (i : Instr), 1 ≤ x → s.mode = .ready → exec (.storeRegs x) s = .next t →
    decodeWord (BitVec.ofNat 16 ((s.getV 0).toNat * 256 + (s.getV 1).toNat)) = .ok i →
    step { t with pc := s.I } = exec i { t with pc := s.I }

/-! ### Display (44_display.md) -/

/-- R171: CLS sets every pixel to 0 and changes nothing else but `pc`; a Draw after it is the Draw on any frame that
was already clear. -/
def Obligations.ClsClears : Prop :=
  ∀ s : State, IsWordOf 0x00E0 .cls ∧
    ∃ t, exec .cls s = .next t ∧ (∀ X Y, X < 64 → Y < 32 → fbGet t.fb X Y = false) ∧ Advances s t 2 ∧
      SameBut [.fb, .pc] s t ∧
      ∀ (x y : RegIdx) (n : Fin 16) (f : Framebuffer), (∀ X Y, X < 64 → Y < 32 → fbGet f X Y = false) →
        exec (.draw x y n) t = exec (.draw x y n) { t with fb := f }

/-- Draw XORs the sprite onto the frame pixel by pixel, dropping what lies outside, and `VF` is 1 exactly when a set
pixel was unset; an access past 0xFFF ends with AddressOutOfRange (R172; the origin, the widths, `n = 0`, the range
and the order are the spec's decision D10, the error its decision D6). -/
def Obligations.DrawXorsTheSprite : Prop :=
  ∀ (x y : RegIdx) (n : Fin 16) (s : State),
    IsWordOf (0xD000 + 0x100 * x.val + 0x10 * y.val + n.val) (.draw x y n) ∧
    (n.val = 0 ∨ s.base + n.val - 1 ≤ 0xFFF → ∃ t, exec (.draw x y n) s = .next t ∧
      (∀ X Y, X < 64 → Y < 32 →
        (Drawn s x y n X Y → fbGet t.fb X Y = !fbGet s.fb X Y) ∧
        (¬ Drawn s x y n X Y → fbGet t.fb X Y = fbGet s.fb X Y)) ∧
      (t.getV 15 = 1 ∨ t.getV 15 = 0) ∧
      (t.getV 15 = 1 ↔ ∃ X Y, X < 64 ∧ Y < 32 ∧ Drawn s x y n X Y ∧ fbGet s.fb X Y = true) ∧
      OtherRegs [15] s t ∧ Advances s t 2 ∧ SameBut [.fb, .V, .pc] s t) ∧
    (0 < n.val → 0xFFF < s.base + n.val - 1 →
      exec (.draw x y n) s = .fault (.addressOutOfRange (max s.base 0x1000)))

/-- Two identical Draws at coordinates the first does not overwrite restore the frame, and the second reports a
collision exactly when the first set at least one pixel inside it (R172, a rule the spec derives, in the words of
95_test_vectors.md P-d; the spec's decision D10). -/
def Obligations.DrawTwiceRestores : Prop :=
  ∀ (x y : RegIdx) (n : Fin 16) (s t : State), x ≠ 15 → y ≠ 15 → exec (.draw x y n) s = .next t →
    ∃ u, exec (.draw x y n) t = .next u ∧ u.fb = s.fb ∧
      (u.getV 15 = 1 ↔ ∃ X Y, X < 64 ∧ Y < 32 ∧ fbGet s.fb X Y = false ∧ fbGet t.fb X Y = true)

/-! ### Keys and timers (45_keys_timers.md, 60_exceptions.md) -/

/-- R180 to R182: the key skips compare the pressed key, if any, with the low nibble of `V[x]`, with opposite
conditions. -/
def Obligations.KeySkips : Prop :=
  ∀ (x : RegIdx) (s : State), IsWordOf (0xE09E + 0x100 * x.val) (.skipIfKey x) ∧
    IsWordOf (0xE0A1 + 0x100 * x.val) (.skipIfNotKey x) ∧
    ∃ t u, exec (.skipIfKey x) s = .next t ∧ exec (.skipIfNotKey x) s = .next u ∧
      ((∃ k : Nibble, s.key = some k ∧ k.toNat = (s.getV x).toNat % 16) → Advances s t 4 ∧ Advances s u 2) ∧
      (¬ (∃ k : Nibble, s.key = some k ∧ k.toNat = (s.getV x).toNat % 16) → Advances s t 2 ∧ Advances s u 4) ∧
      SameBut [.pc] s t ∧ SameBut [.pc] s u

/-- LDKR on entry: the core waits for register `x`; nothing else changes, `pc` too, even with a key held (R183; that a
held key does not complete it at once is the spec's decision D11). -/
def Obligations.LdkrEntersTheWait : Prop :=
  ∀ (x : RegIdx) (s : State), IsWordOf (0xF00A + 0x100 * x.val) (.ldkr x) ∧
    ∃ t, exec (.ldkr x) s = .next t ∧ t.mode = .awaitingKey x ∧ SameBut [.mode] s t

/-- A Step while AwaitingKey: without a key nothing changes; with one, the load, the return to Ready and the advance
happen together, and the key stays (R183; the spec's decisions D11, D12 and D16). -/
def Obligations.LdkrResumesWithAKey : Prop :=
  ∀ (x : RegIdx) (s : State), s.mode = .awaitingKey x →
    (s.key = none → step s = .next s) ∧
    (∀ k : Nibble, s.key = some k → ∃ t, step s = .next t ∧ (t.getV x).toNat = k.toNat ∧ OtherRegs [x] s t ∧
      t.mode = .ready ∧ Advances s t 2 ∧ SameBut [.V, .mode, .pc] s t)

/-- With no key ever set, LDKR waits for any number of Steps and nothing changes (R101, R183; D12). -/
def Obligations.WaitWithoutKeyLastsForever : Prop :=
  ∀ (x : RegIdx) (s : State) (k : Nat), s.mode = .awaitingKey x → s.key = none → Sys2Proof.core.run k s = .next s

/-- A jump to itself is an idle loop: any number of Steps leaves the whole state as it was (R101, R113). -/
def Obligations.JumpToSelfIdles : Prop :=
  ∀ (nnn : Addr12) (s : State) (k : Nat), s.mode = .ready → s.pc.toNat ≤ 0xFFE → nnn.toNat = s.pc.toNat →
    decodeWord (wordAt s s.pc.toNat) = .ok (.jp nnn) → Sys2Proof.core.run k s = .next s

/-- LoadDelay, SetDelay and SetSound (R184 to R186; which opcode does which is general knowledge the spec marks, D28,
log 24). -/
def Obligations.TimerMoves : Prop :=
  ∀ (x : RegIdx) (s : State), IsWordOf (0xF007 + 0x100 * x.val) (.loadDelay x) ∧
    IsWordOf (0xF015 + 0x100 * x.val) (.setDelay x) ∧ IsWordOf (0xF018 + 0x100 * x.val) (.setSound x) ∧
    (∃ t, exec (.loadDelay x) s = .next t ∧ t.getV x = s.DT ∧ OtherRegs [x] s t ∧ Advances s t 2 ∧
      SameBut [.V, .pc] s t) ∧
    (∃ t, exec (.setDelay x) s = .next t ∧ t.DT = s.getV x ∧ Advances s t 2 ∧ SameBut [.DT, .pc] s t) ∧
    (∃ t, exec (.setSound x) s = .next t ∧ t.ST = s.getV x ∧ Advances s t 2 ∧ SameBut [.ST, .pc] s t)

/-- TickTimers any number of times: each timer goes down by one a tick and stops at 0; nothing else changes, in any
mode (R210; that it is independent of the mode is the spec's decision D24). -/
def Obligations.TicksFloorAtZero : Prop :=
  ∀ (k : Nat) (s : State), let t := tickTimers^[k] s
    t.DT.toNat = s.DT.toNat - k ∧ t.ST.toNat = s.ST.toNat - k ∧ SameBut [.DT, .ST] s t

/-- Ticking and stepping are independent: an instruction that names no timer gives the same result, timers apart,
before and after a tick, and so does a Step that waits (R95, R209; D24). -/
def Obligations.TicksCommuteWithOtherInstructions : Prop :=
  (∀ (i : Instr) (s : State), (∀ x, i ≠ .loadDelay x ∧ i ≠ .setDelay x ∧ i ≠ .setSound x) →
    exec i (tickTimers s) = mapNext tickTimers (exec i s)) ∧
  (∀ (x : RegIdx) (s : State), s.mode = .awaitingKey x → step (tickTimers s) = mapNext tickTimers (step s))

/-! ### The whole machine (10_state.md) -/

/-- Who writes each part of the state but `V` and `pc`, which RegistersChangeOnlyWhenWritten and PcAfterEachInstruction
state (R23, R25, R26, R28 to R31, R55; the mode changes for LDKR alone, R30, R183; that no instruction changes the key is
the spec's decision D16, log 18; only Random consumes a random byte, R94, whose count is the model's, log 1; the font is
a parameter, log 2). -/
def Obligations.WritersOfEachPart : Prop :=
  ∀ (i : Instr) (s t : State), exec i s = .next t →
    (t.I ≠ s.I → (∃ nnn, i = .loadIndex nnn) ∨ (∃ x, i = .addri x ∨ i = .ldsi x)) ∧
    (t.stack ≠ s.stack → ∃ nnn, i = .call nnn) ∧
    (t.sp ≠ s.sp → i = .ret ∨ ∃ nnn, i = .call nnn) ∧
    (t.DT ≠ s.DT → ∃ x, i = .setDelay x) ∧
    (t.ST ≠ s.ST → ∃ x, i = .setSound x) ∧
    (∀ a, t.mem.read a ≠ s.mem.read a → (∃ x, i = .storeBCD x ∨ i = .storeRegs x) ∧
      s.base ≤ a ∧ a < s.base + dataBytes i) ∧
    (t.fb ≠ s.fb → i = .cls ∨ ∃ x y n, i = .draw x y n) ∧
    (t.mode ≠ s.mode → isLdkr i = true) ∧
    (t.draws ≠ s.draws → ∃ x kk, i = .random x kk) ∧
    t.key = s.key ∧ t.romLoaded = s.romLoaded ∧ t.mem.font = s.mem.font

/-- A register changes only as a destination or, `VF`, as the flag output of the six instructions that have one
(R21, R22; the spec's decision D5). -/
def Obligations.RegistersChangeOnlyWhenWritten : Prop :=
  ∀ (i : Instr) (s t : State) (j : RegIdx), exec i s = .next t → t.getV j ≠ s.getV j →
    writesReg i j = true ∨ (j = 15 ∧ writesFlag i = true)

/-- What no instruction reads: `ST`, `rom_loaded`, and, but for Random, the random input (R26, R31, R94; the count of
draws is the model's, log 1). The result is the same whatever they hold, and they are carried through. -/
def Obligations.UnreadPartsAreCarriedThrough : Prop :=
  ∀ (i : Instr) (s : State),
    (∀ v, (∀ x, i ≠ .setSound x) →
      exec i { s with ST := v } = mapNext (fun t => { t with ST := v }) (exec i s)) ∧
    (∀ v x, exec (.setSound x) { s with ST := v } = exec (.setSound x) s) ∧
    (∀ b, exec i { s with romLoaded := b } = mapNext (fun t => { t with romLoaded := b }) (exec i s)) ∧
    (∀ k, (∀ x kk, i ≠ .random x kk) →
      exec i { s with draws := k } = mapNext (fun t => { t with draws := k }) (exec i s))

/-- The state after Reset meets the two invariants below. -/
def Obligations.ResetMeetsTheInvariants : Prop :=
  State.reset.mem.wf ∧ PcBounded State.reset

/-- Every Step keeps memory in its canonical form: addresses rising and inside 0x000..0xFFF, no entry equal to the
reset contents (log 3; 20_memory.md R50, R51, R56). -/
def Obligations.StepKeepsMemoryCanonical : Prop :=
  ∀ s t : State, s.mem.wf → step s = .next t → t.mem.wf

/-- Every state a host can bring the core into has its memory in canonical form, whatever the schedule of operations,
the font and the random bytes (R90, R95; log 2, log 3). -/
def Obligations.ReachableMemoryIsCanonical : Prop :=
  ∀ s : State, Sys2Proof.Safety.Reachable s → s.mem.wf

/-- Every Step keeps the bounds on `pc` and the return addresses, so the wrap of `pc` at 16 bits is never reached in a
run (R92; D9). -/
def Obligations.StepKeepsPcBounded : Prop :=
  ∀ s t : State, PcBounded s → step s = .next t → PcBounded t

/-! ### Host operations (40_cycle.md, 70_reset_and_hazards.md) -/

/-- An operation that returns an error changes nothing (R202; for AddressOutOfRange, RomTooLarge and AlreadyLoaded the
spec's decisions D6 and D15). -/
def Obligations.AnErrorChangesNothing : Prop :=
  ∀ (op : HostOp) (s : State) (e : Fault),
    (runHostOp op s).1 = .stepped (.error e) ∨ (runHostOp op s).1 = .loadError e → (runHostOp op s).2 = s

/-- Reset gives every field its reset value, from any state (R33, R231; for `I`, `mode` and `rom_loaded` the spec's
decision D19). The font parameter and the place in the host's random bytes, which are no part of the Machine State,
stay (log 1, log 2). -/
def Obligations.ResetValues : Prop :=
  ∀ s : State, let t := hostReset s
    (∀ i, t.getV i = 0) ∧ t.I = 0 ∧ t.pc = 0 ∧ (∀ j : Fin 16, t.stack[j.val] = 0) ∧ t.sp = 0 ∧ t.DT = 0 ∧ t.ST = 0 ∧
    (∀ a, t.mem.read a = if h : a < 80 then s.mem.font[a] else 0) ∧ t.key = none ∧
    (∀ X Y, X < 64 → Y < 32 → fbGet t.fb X Y = false) ∧ t.mode = .ready ∧ t.romLoaded = false ∧
    t.mem.font = s.mem.font ∧ t.draws = s.draws

/-- LoadRom writes the ROM at 0x200 and starts it; a loaded ROM, then a ROM of more than 3584 bytes, is refused
(R232; the order of the tests and `mode` are the spec's decision D15). -/
def Obligations.LoadRomLoadsOrFails : Prop :=
  ∀ (rom : List Byte) (s : State),
    (s.romLoaded = true → loadRom rom s = .fault .alreadyLoaded) ∧
    (s.romLoaded = false → 3584 < rom.length → loadRom rom s = .fault .romTooLarge) ∧
    (s.romLoaded = false → rom.length ≤ 3584 → ∃ t, loadRom rom s = .next t ∧
      (∀ i, (h : i < rom.length) → t.mem.read (0x200 + i) = rom[i]) ∧
      (∀ a, a < 0x200 ∨ 0x200 + rom.length ≤ a → t.mem.read a = s.mem.read a) ∧
      t.pc = 0x200 ∧ t.mode = .ready ∧ t.romLoaded = true ∧ SameBut [.mem, .pc, .mode, .romLoaded] s t)

/-- What a program finds at entry when Reset and LoadRom come before its first Step (R235, a rule the spec derives;
D15, D19). -/
def Obligations.StateAtProgramEntry : Prop :=
  ∀ (rom : List Byte) (s : State), rom.length ≤ 3584 →
    ∃ t, loadRom rom (hostReset s) = .next t ∧ t.pc = 0x200 ∧ (∀ i, t.getV i = 0) ∧ t.I = 0 ∧ t.sp = 0 ∧ t.DT = 0 ∧
      t.ST = 0 ∧ t.key = none ∧ t.mode = .ready ∧ t.romLoaded = true ∧
      (∀ X Y, X < 64 → Y < 32 → fbGet t.fb X Y = false) ∧
      ∀ a, t.mem.read a =
        if h : a < 80 then s.mem.font[a]
        else if 0x200 ≤ a then (rom[a - 0x200]?).getD 0 else 0

/-- The framebuffer snapshot: 2048 bytes, row-major, non-zero exactly for a set pixel; the state is left alone (R97;
which non-zero byte is the spec's decision D17). -/
def Obligations.SnapshotIsRowMajor : Prop :=
  ∀ s : State, (runHostOp .readFramebuffer s).1 = .framebuffer (readFramebuffer s) ∧
    (runHostOp .readFramebuffer s).2 = s ∧ (readFramebuffer s).length = 2048 ∧
    ∀ X Y, X < 64 → Y < 32 → ∃ b, (readFramebuffer s)[Y * 64 + X]? = some b ∧ (b ≠ 0 ↔ fbGet s.fb X Y = true)

/-- R98: ReadTimers returns the two timers and changes no state. -/
def Obligations.ReadTimersReturnsBoth : Prop :=
  ∀ s : State, (runHostOp .readTimers s).1 = .timers s.DT s.ST ∧ (runHostOp .readTimers s).2 = s

/-- SetKey writes the key and nothing else, in any mode (R96); the key then stays through any number of Steps (the
spec's decision D16). -/
def Obligations.KeyPersistsThroughSteps : Prop :=
  ∀ (k : Option Nibble) (n : Nat) (s t : State), SameBut [.key] s (setKey k s) ∧ (setKey k s).key = k ∧
    (Sys2Proof.core.run n (setKey k s) = .next t → t.key = k)
end

