-- ==== Sys2Proof/Laws/Decode.lean ====
section
/-! SUPPORT. The small laws of the fields and layouts of an instruction word (spec/30_encoding.md R71, R72): each as a
number, and each field of each layout. -/

namespace Sys2Proof

@[simp] theorem ofNibble_toNibble (x : Fin 16) : ofNibble (toNibble x) = x := by
  apply Fin.ext
  have := x.isLt
  simp only [ofNibble, toNibble, BitVec.toNat_ofNat]
  omega

@[simp] theorem toNibble_ofNibble (v : Nibble) : toNibble (ofNibble v) = v := by
  apply BitVec.eq_of_toNat_eq
  simp only [ofNibble, toNibble, BitVec.toNat_ofNat]
  have := v.isLt
  omega

theorem ofNibble_val (v : Nibble) : (ofNibble v).val = v.toNat := rfl

theorem toNibble_toNat (x : Fin 16) : (toNibble x).toNat = x.val := by
  simp only [toNibble, BitVec.toNat_ofNat]; omega

/-! ### Fields as numbers -/

theorem fieldN0_toNat (w : Word) : (fieldN0 w).toNat = w.toNat / 4096 := by
  simp only [fieldN0, BitVec.extractLsb'_toNat, Nat.shiftRight_eq_div_pow]
  have := w.isLt; omega

theorem fieldN1_toNat (w : Word) : (fieldN1 w).toNat = w.toNat / 256 % 16 := by
  simp only [fieldN1, BitVec.extractLsb'_toNat, Nat.shiftRight_eq_div_pow]

theorem fieldN2_toNat (w : Word) : (fieldN2 w).toNat = w.toNat / 16 % 16 := by
  simp only [fieldN2, BitVec.extractLsb'_toNat, Nat.shiftRight_eq_div_pow]

theorem fieldN3_toNat (w : Word) : (fieldN3 w).toNat = w.toNat % 16 := by
  simp only [fieldN3, BitVec.extractLsb'_toNat, Nat.shiftRight_eq_div_pow]; omega

theorem fieldKK_toNat (w : Word) : (fieldKK w).toNat = w.toNat % 256 := by
  simp only [fieldKK, BitVec.extractLsb'_toNat, Nat.shiftRight_eq_div_pow]; omega

theorem fieldNNN_toNat (w : Word) : (fieldNNN w).toNat = w.toNat % 4096 := by
  simp only [fieldNNN, BitVec.extractLsb'_toNat, Nat.shiftRight_eq_div_pow]; omega

/-! ### Words as numbers -/

theorem append_toNat {m n : Nat} (a : BitVec m) (b : BitVec n) : (a ++ b).toNat = a.toNat * 2 ^ n + b.toNat := by
  rw [BitVec.toNat_append, ← Nat.shiftLeft_add_eq_or_of_lt b.isLt, Nat.shiftLeft_eq]

theorem layoutA_toNat (op : Nibble) (nnn : Addr12) : (layoutA op nnn).toNat = op.toNat * 4096 + nnn.toNat :=
  append_toNat op nnn

theorem layoutXK_toNat (op : Nibble) (x : RegIdx) (kk : Byte) :
    (layoutXK op x kk).toNat = op.toNat * 4096 + x.val * 256 + kk.toNat := by
  refine (append_toNat (op ++ toNibble x) kk).trans ?_
  rw [append_toNat, toNibble_toNat]; omega

theorem layoutXY_toNat (op : Nibble) (x y : RegIdx) (n : Nibble) :
    (layoutXY op x y n).toNat = op.toNat * 4096 + x.val * 256 + y.val * 16 + n.toNat := by
  refine (append_toNat (op ++ toNibble x ++ toNibble y) n).trans ?_
  rw [append_toNat, append_toNat, toNibble_toNat, toNibble_toNat]; omega

theorem wordOfBytes_toNat (hi lo : Byte) : (wordOfBytes hi lo).toNat = hi.toNat * 256 + lo.toNat :=
  append_toNat hi lo

theorem hiByte_toNat (w : Word) : (hiByte w).toNat = w.toNat / 256 := by
  simp only [hiByte, BitVec.extractLsb'_toNat, Nat.shiftRight_eq_div_pow]
  have := w.isLt; omega

theorem loByte_toNat (w : Word) : (loByte w).toNat = w.toNat % 256 := by
  simp only [loByte, BitVec.extractLsb'_toNat, Nat.shiftRight_eq_div_pow]; omega

/-! ### The fields of a layout -/

@[simp] theorem fieldN0_layoutA (op : Nibble) (nnn : Addr12) : fieldN0 (layoutA op nnn) = op := by
  apply BitVec.eq_of_toNat_eq
  rw [fieldN0_toNat, layoutA_toNat]
  have := nnn.isLt; omega

@[simp] theorem fieldNNN_layoutA (op : Nibble) (nnn : Addr12) : fieldNNN (layoutA op nnn) = nnn := by
  apply BitVec.eq_of_toNat_eq
  rw [fieldNNN_toNat, layoutA_toNat]
  have := nnn.isLt; omega

@[simp] theorem fieldN0_layoutXK (op : Nibble) (x : RegIdx) (kk : Byte) : fieldN0 (layoutXK op x kk) = op := by
  apply BitVec.eq_of_toNat_eq
  rw [fieldN0_toNat, layoutXK_toNat]
  have := kk.isLt; omega

@[simp] theorem fieldN1_layoutXK (op : Nibble) (x : RegIdx) (kk : Byte) :
    fieldN1 (layoutXK op x kk) = toNibble x := by
  apply BitVec.eq_of_toNat_eq
  rw [fieldN1_toNat, layoutXK_toNat, toNibble_toNat]
  have := kk.isLt; omega

@[simp] theorem fieldKK_layoutXK (op : Nibble) (x : RegIdx) (kk : Byte) : fieldKK (layoutXK op x kk) = kk := by
  apply BitVec.eq_of_toNat_eq
  rw [fieldKK_toNat, layoutXK_toNat]
  have := kk.isLt; omega

@[simp] theorem fieldN0_layoutXY (op : Nibble) (x y : RegIdx) (n : Nibble) :
    fieldN0 (layoutXY op x y n) = op := by
  apply BitVec.eq_of_toNat_eq
  rw [fieldN0_toNat, layoutXY_toNat]
  have := n.isLt; omega

@[simp] theorem fieldN1_layoutXY (op : Nibble) (x y : RegIdx) (n : Nibble) :
    fieldN1 (layoutXY op x y n) = toNibble x := by
  apply BitVec.eq_of_toNat_eq
  rw [fieldN1_toNat, layoutXY_toNat, toNibble_toNat]
  have := n.isLt; omega

@[simp] theorem fieldN2_layoutXY (op : Nibble) (x y : RegIdx) (n : Nibble) :
    fieldN2 (layoutXY op x y n) = toNibble y := by
  apply BitVec.eq_of_toNat_eq
  rw [fieldN2_toNat, layoutXY_toNat, toNibble_toNat]
  have := n.isLt; omega

@[simp] theorem fieldN3_layoutXY (op : Nibble) (x y : RegIdx) (n : Nibble) :
    fieldN3 (layoutXY op x y n) = n := by
  apply BitVec.eq_of_toNat_eq
  rw [fieldN3_toNat, layoutXY_toNat]
  have := n.isLt; omega

/-! ### A word is the layout of its fields -/

theorem layoutA_fields (w : Word) : layoutA (fieldN0 w) (fieldNNN w) = w := by
  apply BitVec.eq_of_toNat_eq
  rw [layoutA_toNat, fieldN0_toNat, fieldNNN_toNat]; omega

theorem layoutXK_fields (w : Word) : layoutXK (fieldN0 w) (ofNibble (fieldN1 w)) (fieldKK w) = w := by
  apply BitVec.eq_of_toNat_eq
  rw [layoutXK_toNat, ofNibble_val, fieldN0_toNat, fieldN1_toNat, fieldKK_toNat]; omega

theorem layoutXY_fields (w : Word) :
    layoutXY (fieldN0 w) (ofNibble (fieldN1 w)) (ofNibble (fieldN2 w)) (fieldN3 w) = w := by
  apply BitVec.eq_of_toNat_eq
  rw [layoutXY_toNat, ofNibble_val, ofNibble_val, fieldN0_toNat, fieldN1_toNat, fieldN2_toNat, fieldN3_toNat]
  omega

/-! ### The bytes of a word (spec/20_memory.md R53) -/

@[simp] theorem wordOfBytes_bytes (w : Word) : wordOfBytes (hiByte w) (loByte w) = w := by
  apply BitVec.eq_of_toNat_eq
  rw [wordOfBytes_toNat, hiByte_toNat, loByte_toNat]; omega

@[simp] theorem hiByte_wordOfBytes (hi lo : Byte) : hiByte (wordOfBytes hi lo) = hi := by
  apply BitVec.eq_of_toNat_eq
  rw [hiByte_toNat, wordOfBytes_toNat]
  have := lo.isLt; omega

@[simp] theorem loByte_wordOfBytes (hi lo : Byte) : loByte (wordOfBytes hi lo) = lo := by
  apply BitVec.eq_of_toNat_eq
  rw [loByte_toNat, wordOfBytes_toNat]
  have := lo.isLt; omega

/-! ### Masks of the opcode table on a layout -/

theorem nibble_and_F (a : Nibble) : a &&& 0xF#4 = a := BitVec.and_allOnes

theorem byte_and_FF (a : Byte) : a &&& 0xFF#8 = a := BitVec.and_allOnes

theorem layoutA_mask (op : Nibble) (nnn : Addr12) : layoutA op nnn &&& 0xF000#16 = op ++ 0x000#12 := by
  refine (BitVec.and_append (x₁ := op) (y₁ := nnn) (x₂ := 0xF#4) (y₂ := 0#12)).trans ?_
  rw [nibble_and_F, BitVec.and_zero]

theorem layoutXK_mask_op (op : Nibble) (x : RegIdx) (kk : Byte) :
    layoutXK op x kk &&& 0xF000#16 = op ++ 0x0#4 ++ 0x00#8 := by
  refine (BitVec.and_append (x₁ := op ++ toNibble x) (y₁ := kk) (x₂ := 0xF#4 ++ 0#4) (y₂ := 0#8)).trans ?_
  rw [BitVec.and_append, nibble_and_F, BitVec.and_zero, BitVec.and_zero]

theorem layoutXK_mask (op : Nibble) (x : RegIdx) (kk : Byte) :
    layoutXK op x kk &&& 0xF0FF#16 = op ++ 0x0#4 ++ kk := by
  refine (BitVec.and_append (x₁ := op ++ toNibble x) (y₁ := kk) (x₂ := 0xF#4 ++ 0#4) (y₂ := 0xFF#8)).trans ?_
  rw [BitVec.and_append, nibble_and_F, byte_and_FF, BitVec.and_zero]

theorem layoutXY_mask_op (op : Nibble) (x y : RegIdx) (n : Nibble) :
    layoutXY op x y n &&& 0xF000#16 = op ++ 0x0#4 ++ 0x0#4 ++ 0x0#4 := by
  refine (BitVec.and_append (x₁ := op ++ toNibble x ++ toNibble y) (y₁ := n)
    (x₂ := 0xF#4 ++ 0#4 ++ 0#4) (y₂ := 0#4)).trans ?_
  rw [BitVec.and_append, BitVec.and_append, nibble_and_F]
  simp only [BitVec.and_zero]

theorem layoutXY_mask (op : Nibble) (x y : RegIdx) (n : Nibble) :
    layoutXY op x y n &&& 0xF00F#16 = op ++ 0x0#4 ++ 0x0#4 ++ n := by
  refine (BitVec.and_append (x₁ := op ++ toNibble x ++ toNibble y) (y₁ := n)
    (x₂ := 0xF#4 ++ 0#4 ++ 0#4) (y₂ := 0xF#4)).trans ?_
  rw [BitVec.and_append, BitVec.and_append, nibble_and_F, nibble_and_F]
  simp only [BitVec.and_zero]

end Sys2Proof
end

