-- ==== Sys2Proof/Laws/Memory.lean ====
section
/-! SUPPORT. The laws of memory: reading after writing, and the canonical form (spec/20_memory.md R50, R55). -/

namespace Sys2Proof.Machine

@[simp] theorem Memory.write_font (m : Memory) (a : Nat) (v : Byte) : (m.write a v).font = m.font := rfl

@[simp] theorem Memory.unlisted_write (m : Memory) (a b : Nat) (v : Byte) :
    (m.write a v).unlisted b = m.unlisted b := rfl

/-- With nothing listed, memory reads as its reset contents (R51). -/
theorem Memory.read_nil (font : Config.FontRom) (a : Nat) :
    Memory.read { font := font, cells := [] } a = Memory.unlisted { font := font, cells := [] } a := rfl

/-! ### Finding a cell -/

theorem findCell_setCell (l : List Host.Cell) (a b : Nat) (v : Byte) :
    findCell (setCell l a v) b = if b = a then some v else findCell l b := by
  induction l with
  | nil => simp only [setCell, findCell]
  | cons c rest ih =>
    obtain ⟨k, w⟩ := c
    simp only [setCell]
    split
    · simp only [findCell]
    · split
      · next h => subst h; simp only [findCell]; split <;> rfl
      · next h =>
        simp only [findCell, ih]
        split
        · next h' => subst h'; rw [if_neg (Ne.symm h)]
        · rfl

theorem findCell_eraseCell (l : List Host.Cell) (a b : Nat) :
    findCell (eraseCell l a) b = if b = a then none else findCell l b := by
  induction l with
  | nil => simp [eraseCell, findCell]
  | cons c rest ih =>
    obtain ⟨k, w⟩ := c
    simp only [eraseCell, List.filter_cons] at ih ⊢
    by_cases hk : k = a
    · subst hk
      simp only [bne_self_eq_false, Bool.false_eq_true, if_false, ih, findCell]
      by_cases h : b = k
      · rw [if_pos h, if_pos h]
      · rw [if_neg h, if_neg h, if_neg h]
    · simp only [bne_iff_ne, ne_eq, hk, not_false_eq_true, if_true, findCell, ih]
      split
      · next h => subst h; rw [if_neg hk]
      · rfl

/-! ### Reading after writing -/

/-- A write gives its address the byte and leaves every other address alone. -/
theorem Memory.read_write (m : Memory) (a b : Nat) (v : Byte) :
    (m.write a v).read b = if b = a then v else m.read b := by
  have hu : (m.write a v).unlisted b = m.unlisted b := rfl
  simp only [Memory.read, hu]
  simp only [Memory.write]
  by_cases hv : v = m.unlisted a
  · rw [if_pos hv, findCell_eraseCell]
    split
    · next h => subst h; simp [hv]
    · rfl
  · rw [if_neg hv, findCell_setCell]
    split <;> rfl

@[simp] theorem Memory.writeList_font (m : Memory) (a : Nat) (vs : List Byte) : (m.writeList a vs).font = m.font := by
  induction vs generalizing m a with
  | nil => rfl
  | cons v vs ih => rw [Memory.writeList, ih, Memory.write_font]

@[simp] theorem Memory.unlisted_writeList (m : Memory) (a b : Nat) (vs : List Byte) :
    (m.writeList a vs).unlisted b = m.unlisted b := by
  simp only [Memory.unlisted, Memory.writeList_font]

/-- Consecutive bytes written at `a` are read back at `a, a+1, ..`; every other address is left alone. -/
theorem Memory.read_writeList (m : Memory) (a b : Nat) (vs : List Byte) :
    (m.writeList a vs).read b = if a ≤ b then (vs[b - a]?).getD (m.read b) else m.read b := by
  induction vs generalizing m a with
  | nil => simp [Memory.writeList]
  | cons v vs ih =>
    rw [Memory.writeList, ih, Memory.read_write]
    by_cases h1 : a + 1 ≤ b
    · have h2 : a ≤ b := by omega
      have h3 : b ≠ a := by omega
      rw [if_pos h1, if_pos h2, if_neg h3, show b - a = (b - (a + 1)) + 1 by omega, List.getElem?_cons_succ]
    · rw [if_neg h1]
      by_cases h2 : b = a
      · subst h2; simp
      · rw [if_neg h2, if_neg (by omega)]

theorem Memory.read_writeList_outside (m : Memory) (a b : Nat) (vs : List Byte)
    (h : b < a ∨ a + vs.length ≤ b) : (m.writeList a vs).read b = m.read b := by
  rw [Memory.read_writeList]
  split
  · rw [List.getElem?_eq_none (by omega)]; rfl
  · rfl

@[simp] theorem Memory.readList_length (m : Memory) (a n : Nat) : (m.readList a n).length = n := by
  simp [Memory.readList]

theorem Memory.readList_get (m : Memory) (a n i : Nat) (h : i < n) : (m.readList a n)[i]? = some (m.read (a + i)) := by
  simp [Memory.readList, h]

/-! ### The canonical form -/

theorem mem_setCell {l : List Host.Cell} {a : Nat} {v : Byte} {c : Host.Cell} (h : c ∈ setCell l a v) :
    c = (a, v) ∨ c ∈ l := by
  induction l with
  | nil => simpa [setCell] using h
  | cons d rest ih =>
    obtain ⟨k, w⟩ := d
    simp only [setCell] at h
    split at h
    · simpa using h
    · split at h
      · rcases List.mem_cons.mp h with h | h
        · exact .inl h
        · exact .inr (List.mem_cons_of_mem _ h)
      · rcases List.mem_cons.mp h with h | h
        · exact .inr (h ▸ List.mem_cons_self)
        · exact (ih h).imp id (List.mem_cons_of_mem _)

theorem setCell_rising {l : List Host.Cell} (a : Nat) (v : Byte) (h : l.Pairwise fun c d => c.1 < d.1) :
    (setCell l a v).Pairwise fun c d => c.1 < d.1 := by
  induction l with
  | nil => simp [setCell]
  | cons d rest ih =>
    obtain ⟨k, w⟩ := d
    have hd := List.pairwise_cons.mp h
    simp only [setCell]
    split
    · next hlt =>
      refine List.pairwise_cons.mpr ⟨fun c hc => ?_, h⟩
      rcases List.mem_cons.mp hc with rfl | hc
      · exact hlt
      · exact Nat.lt_trans hlt (hd.1 c hc)
    · split
      · next heq => exact List.pairwise_cons.mpr ⟨fun c hc => heq ▸ hd.1 c hc, hd.2⟩
      · refine List.pairwise_cons.mpr ⟨fun c hc => ?_, ih hd.2⟩
        rcases mem_setCell hc with rfl | hc
        · show k < a; omega
        · exact hd.1 c hc

/-- A write inside memory keeps the canonical form. -/
theorem Memory.wf_write {m : Memory} (hm : m.wf) (a : Nat) (v : Byte) (ha : a < 0x1000) : (m.write a v).wf := by
  obtain ⟨hr, hc⟩ := hm
  by_cases hv : v = m.unlisted a
  · have e : (m.write a v).cells = eraseCell m.cells a := by simp [Memory.write, hv]
    refine ⟨?_, fun c hmem => ?_⟩
    · rw [e]; exact hr.filter _
    · rw [e] at hmem
      exact hc c (List.mem_of_mem_filter hmem)
  · have e : (m.write a v).cells = setCell m.cells a v := by simp [Memory.write, hv]
    refine ⟨?_, fun c hmem => ?_⟩
    · rw [e]; exact setCell_rising a v hr
    · rw [e] at hmem
      rcases mem_setCell hmem with rfl | hmem
      · exact ⟨ha, hv⟩
      · exact hc c hmem

/-- Writing consecutive bytes inside memory keeps the canonical form. -/
theorem Memory.wf_writeList {m : Memory} (hm : m.wf) (a : Nat) (vs : List Byte) (h : a + vs.length ≤ 0x1000) :
    (m.writeList a vs).wf := by
  induction vs generalizing m a with
  | nil => exact hm
  | cons v vs ih =>
    simp only [List.length_cons] at h
    exact ih (m := m.write a v) (Memory.wf_write hm a v (by omega)) (a + 1) (by omega)

/-- Memory with nothing listed is canonical, whatever the font. -/
theorem Memory.wf_nil (font : Config.FontRom) : Memory.wf { font := font, cells := [] } :=
  ⟨List.Pairwise.nil, fun _ h => nomatch h⟩

/-- The memory after Reset is canonical. -/
theorem Memory.wf_reset : State.reset.mem.wf := Memory.wf_nil _

end Sys2Proof.Machine
end

