-- ==== Sys2Proof/Laws/State.lean ====
section
/-! SUPPORT. What each named update of the state does to each field, one lemma per field per update, true by rfl; and
what reading a register gives after each. -/

namespace Sys2Proof.Machine

/-! ### `setPc` -/

@[simp] theorem State.setPc_V (s : State) (target : Word) : (s.setPc target).V = s.V := rfl
@[simp] theorem State.setPc_I (s : State) (target : Word) : (s.setPc target).I = s.I := rfl
@[simp] theorem State.setPc_pc (s : State) (target : Word) : (s.setPc target).pc = target := rfl
@[simp] theorem State.setPc_stack (s : State) (target : Word) : (s.setPc target).stack = s.stack := rfl
@[simp] theorem State.setPc_sp (s : State) (target : Word) : (s.setPc target).sp = s.sp := rfl
@[simp] theorem State.setPc_DT (s : State) (target : Word) : (s.setPc target).DT = s.DT := rfl
@[simp] theorem State.setPc_ST (s : State) (target : Word) : (s.setPc target).ST = s.ST := rfl
@[simp] theorem State.setPc_mem (s : State) (target : Word) : (s.setPc target).mem = s.mem := rfl
@[simp] theorem State.setPc_key (s : State) (target : Word) : (s.setPc target).key = s.key := rfl
@[simp] theorem State.setPc_fb (s : State) (target : Word) : (s.setPc target).fb = s.fb := rfl
@[simp] theorem State.setPc_mode (s : State) (target : Word) : (s.setPc target).mode = s.mode := rfl
@[simp] theorem State.setPc_romLoaded (s : State) (target : Word) : (s.setPc target).romLoaded = s.romLoaded := rfl
@[simp] theorem State.setPc_draws (s : State) (target : Word) : (s.setPc target).draws = s.draws := rfl

/-! ### `setV` -/

@[simp] theorem State.setV_V (s : State) (i : RegIdx) (v : Byte) : (s.setV i v).V = s.V.set i.val v := rfl
@[simp] theorem State.setV_I (s : State) (i : RegIdx) (v : Byte) : (s.setV i v).I = s.I := rfl
@[simp] theorem State.setV_pc (s : State) (i : RegIdx) (v : Byte) : (s.setV i v).pc = s.pc := rfl
@[simp] theorem State.setV_stack (s : State) (i : RegIdx) (v : Byte) : (s.setV i v).stack = s.stack := rfl
@[simp] theorem State.setV_sp (s : State) (i : RegIdx) (v : Byte) : (s.setV i v).sp = s.sp := rfl
@[simp] theorem State.setV_DT (s : State) (i : RegIdx) (v : Byte) : (s.setV i v).DT = s.DT := rfl
@[simp] theorem State.setV_ST (s : State) (i : RegIdx) (v : Byte) : (s.setV i v).ST = s.ST := rfl
@[simp] theorem State.setV_mem (s : State) (i : RegIdx) (v : Byte) : (s.setV i v).mem = s.mem := rfl
@[simp] theorem State.setV_key (s : State) (i : RegIdx) (v : Byte) : (s.setV i v).key = s.key := rfl
@[simp] theorem State.setV_fb (s : State) (i : RegIdx) (v : Byte) : (s.setV i v).fb = s.fb := rfl
@[simp] theorem State.setV_mode (s : State) (i : RegIdx) (v : Byte) : (s.setV i v).mode = s.mode := rfl
@[simp] theorem State.setV_romLoaded (s : State) (i : RegIdx) (v : Byte) : (s.setV i v).romLoaded = s.romLoaded := rfl
@[simp] theorem State.setV_draws (s : State) (i : RegIdx) (v : Byte) : (s.setV i v).draws = s.draws := rfl

/-! ### `setI` -/

@[simp] theorem State.setI_V (s : State) (v : Word) : (s.setI v).V = s.V := rfl
@[simp] theorem State.setI_I (s : State) (v : Word) : (s.setI v).I = v := rfl
@[simp] theorem State.setI_pc (s : State) (v : Word) : (s.setI v).pc = s.pc := rfl
@[simp] theorem State.setI_stack (s : State) (v : Word) : (s.setI v).stack = s.stack := rfl
@[simp] theorem State.setI_sp (s : State) (v : Word) : (s.setI v).sp = s.sp := rfl
@[simp] theorem State.setI_DT (s : State) (v : Word) : (s.setI v).DT = s.DT := rfl
@[simp] theorem State.setI_ST (s : State) (v : Word) : (s.setI v).ST = s.ST := rfl
@[simp] theorem State.setI_mem (s : State) (v : Word) : (s.setI v).mem = s.mem := rfl
@[simp] theorem State.setI_key (s : State) (v : Word) : (s.setI v).key = s.key := rfl
@[simp] theorem State.setI_fb (s : State) (v : Word) : (s.setI v).fb = s.fb := rfl
@[simp] theorem State.setI_mode (s : State) (v : Word) : (s.setI v).mode = s.mode := rfl
@[simp] theorem State.setI_romLoaded (s : State) (v : Word) : (s.setI v).romLoaded = s.romLoaded := rfl
@[simp] theorem State.setI_draws (s : State) (v : Word) : (s.setI v).draws = s.draws := rfl

/-! ### `setDT` -/

@[simp] theorem State.setDT_V (s : State) (v : Byte) : (s.setDT v).V = s.V := rfl
@[simp] theorem State.setDT_I (s : State) (v : Byte) : (s.setDT v).I = s.I := rfl
@[simp] theorem State.setDT_pc (s : State) (v : Byte) : (s.setDT v).pc = s.pc := rfl
@[simp] theorem State.setDT_stack (s : State) (v : Byte) : (s.setDT v).stack = s.stack := rfl
@[simp] theorem State.setDT_sp (s : State) (v : Byte) : (s.setDT v).sp = s.sp := rfl
@[simp] theorem State.setDT_DT (s : State) (v : Byte) : (s.setDT v).DT = v := rfl
@[simp] theorem State.setDT_ST (s : State) (v : Byte) : (s.setDT v).ST = s.ST := rfl
@[simp] theorem State.setDT_mem (s : State) (v : Byte) : (s.setDT v).mem = s.mem := rfl
@[simp] theorem State.setDT_key (s : State) (v : Byte) : (s.setDT v).key = s.key := rfl
@[simp] theorem State.setDT_fb (s : State) (v : Byte) : (s.setDT v).fb = s.fb := rfl
@[simp] theorem State.setDT_mode (s : State) (v : Byte) : (s.setDT v).mode = s.mode := rfl
@[simp] theorem State.setDT_romLoaded (s : State) (v : Byte) : (s.setDT v).romLoaded = s.romLoaded := rfl
@[simp] theorem State.setDT_draws (s : State) (v : Byte) : (s.setDT v).draws = s.draws := rfl

/-! ### `setST` -/

@[simp] theorem State.setST_V (s : State) (v : Byte) : (s.setST v).V = s.V := rfl
@[simp] theorem State.setST_I (s : State) (v : Byte) : (s.setST v).I = s.I := rfl
@[simp] theorem State.setST_pc (s : State) (v : Byte) : (s.setST v).pc = s.pc := rfl
@[simp] theorem State.setST_stack (s : State) (v : Byte) : (s.setST v).stack = s.stack := rfl
@[simp] theorem State.setST_sp (s : State) (v : Byte) : (s.setST v).sp = s.sp := rfl
@[simp] theorem State.setST_DT (s : State) (v : Byte) : (s.setST v).DT = s.DT := rfl
@[simp] theorem State.setST_ST (s : State) (v : Byte) : (s.setST v).ST = v := rfl
@[simp] theorem State.setST_mem (s : State) (v : Byte) : (s.setST v).mem = s.mem := rfl
@[simp] theorem State.setST_key (s : State) (v : Byte) : (s.setST v).key = s.key := rfl
@[simp] theorem State.setST_fb (s : State) (v : Byte) : (s.setST v).fb = s.fb := rfl
@[simp] theorem State.setST_mode (s : State) (v : Byte) : (s.setST v).mode = s.mode := rfl
@[simp] theorem State.setST_romLoaded (s : State) (v : Byte) : (s.setST v).romLoaded = s.romLoaded := rfl
@[simp] theorem State.setST_draws (s : State) (v : Byte) : (s.setST v).draws = s.draws := rfl

/-! ### `setMode` -/

@[simp] theorem State.setMode_V (s : State) (m : Mode) : (s.setMode m).V = s.V := rfl
@[simp] theorem State.setMode_I (s : State) (m : Mode) : (s.setMode m).I = s.I := rfl
@[simp] theorem State.setMode_pc (s : State) (m : Mode) : (s.setMode m).pc = s.pc := rfl
@[simp] theorem State.setMode_stack (s : State) (m : Mode) : (s.setMode m).stack = s.stack := rfl
@[simp] theorem State.setMode_sp (s : State) (m : Mode) : (s.setMode m).sp = s.sp := rfl
@[simp] theorem State.setMode_DT (s : State) (m : Mode) : (s.setMode m).DT = s.DT := rfl
@[simp] theorem State.setMode_ST (s : State) (m : Mode) : (s.setMode m).ST = s.ST := rfl
@[simp] theorem State.setMode_mem (s : State) (m : Mode) : (s.setMode m).mem = s.mem := rfl
@[simp] theorem State.setMode_key (s : State) (m : Mode) : (s.setMode m).key = s.key := rfl
@[simp] theorem State.setMode_fb (s : State) (m : Mode) : (s.setMode m).fb = s.fb := rfl
@[simp] theorem State.setMode_mode (s : State) (m : Mode) : (s.setMode m).mode = m := rfl
@[simp] theorem State.setMode_romLoaded (s : State) (m : Mode) : (s.setMode m).romLoaded = s.romLoaded := rfl
@[simp] theorem State.setMode_draws (s : State) (m : Mode) : (s.setMode m).draws = s.draws := rfl

/-! ### `nextDraw` -/

@[simp] theorem State.nextDraw_V (s : State) : s.nextDraw.V = s.V := rfl
@[simp] theorem State.nextDraw_I (s : State) : s.nextDraw.I = s.I := rfl
@[simp] theorem State.nextDraw_pc (s : State) : s.nextDraw.pc = s.pc := rfl
@[simp] theorem State.nextDraw_stack (s : State) : s.nextDraw.stack = s.stack := rfl
@[simp] theorem State.nextDraw_sp (s : State) : s.nextDraw.sp = s.sp := rfl
@[simp] theorem State.nextDraw_DT (s : State) : s.nextDraw.DT = s.DT := rfl
@[simp] theorem State.nextDraw_ST (s : State) : s.nextDraw.ST = s.ST := rfl
@[simp] theorem State.nextDraw_mem (s : State) : s.nextDraw.mem = s.mem := rfl
@[simp] theorem State.nextDraw_key (s : State) : s.nextDraw.key = s.key := rfl
@[simp] theorem State.nextDraw_fb (s : State) : s.nextDraw.fb = s.fb := rfl
@[simp] theorem State.nextDraw_mode (s : State) : s.nextDraw.mode = s.mode := rfl
@[simp] theorem State.nextDraw_romLoaded (s : State) : s.nextDraw.romLoaded = s.romLoaded := rfl
@[simp] theorem State.nextDraw_draws (s : State) : s.nextDraw.draws = s.draws + 1 := rfl

/-! ### `advance` -/

@[simp] theorem State.advance_V (s : State) (k : Nat) : (s.advance k).V = s.V := rfl
@[simp] theorem State.advance_I (s : State) (k : Nat) : (s.advance k).I = s.I := rfl
@[simp] theorem State.advance_pc (s : State) (k : Nat) : (s.advance k).pc = s.pc + BitVec.ofNat 16 k := rfl
@[simp] theorem State.advance_stack (s : State) (k : Nat) : (s.advance k).stack = s.stack := rfl
@[simp] theorem State.advance_sp (s : State) (k : Nat) : (s.advance k).sp = s.sp := rfl
@[simp] theorem State.advance_DT (s : State) (k : Nat) : (s.advance k).DT = s.DT := rfl
@[simp] theorem State.advance_ST (s : State) (k : Nat) : (s.advance k).ST = s.ST := rfl
@[simp] theorem State.advance_mem (s : State) (k : Nat) : (s.advance k).mem = s.mem := rfl
@[simp] theorem State.advance_key (s : State) (k : Nat) : (s.advance k).key = s.key := rfl
@[simp] theorem State.advance_fb (s : State) (k : Nat) : (s.advance k).fb = s.fb := rfl
@[simp] theorem State.advance_mode (s : State) (k : Nat) : (s.advance k).mode = s.mode := rfl
@[simp] theorem State.advance_romLoaded (s : State) (k : Nat) : (s.advance k).romLoaded = s.romLoaded := rfl
@[simp] theorem State.advance_draws (s : State) (k : Nat) : (s.advance k).draws = s.draws := rfl

/-! ### `tickTimers` -/

@[simp] theorem tickTimers_V (s : State) : (tickTimers s).V = s.V := rfl
@[simp] theorem tickTimers_I (s : State) : (tickTimers s).I = s.I := rfl
@[simp] theorem tickTimers_pc (s : State) : (tickTimers s).pc = s.pc := rfl
@[simp] theorem tickTimers_stack (s : State) : (tickTimers s).stack = s.stack := rfl
@[simp] theorem tickTimers_sp (s : State) : (tickTimers s).sp = s.sp := rfl
@[simp] theorem tickTimers_DT (s : State) : (tickTimers s).DT = tickTimer s.DT := rfl
@[simp] theorem tickTimers_ST (s : State) : (tickTimers s).ST = tickTimer s.ST := rfl
@[simp] theorem tickTimers_mem (s : State) : (tickTimers s).mem = s.mem := rfl
@[simp] theorem tickTimers_key (s : State) : (tickTimers s).key = s.key := rfl
@[simp] theorem tickTimers_fb (s : State) : (tickTimers s).fb = s.fb := rfl
@[simp] theorem tickTimers_mode (s : State) : (tickTimers s).mode = s.mode := rfl
@[simp] theorem tickTimers_romLoaded (s : State) : (tickTimers s).romLoaded = s.romLoaded := rfl
@[simp] theorem tickTimers_draws (s : State) : (tickTimers s).draws = s.draws := rfl

/-! ### `setKey` -/

@[simp] theorem setKey_V (k : Option Nibble) (s : State) : (setKey k s).V = s.V := rfl
@[simp] theorem setKey_I (k : Option Nibble) (s : State) : (setKey k s).I = s.I := rfl
@[simp] theorem setKey_pc (k : Option Nibble) (s : State) : (setKey k s).pc = s.pc := rfl
@[simp] theorem setKey_stack (k : Option Nibble) (s : State) : (setKey k s).stack = s.stack := rfl
@[simp] theorem setKey_sp (k : Option Nibble) (s : State) : (setKey k s).sp = s.sp := rfl
@[simp] theorem setKey_DT (k : Option Nibble) (s : State) : (setKey k s).DT = s.DT := rfl
@[simp] theorem setKey_ST (k : Option Nibble) (s : State) : (setKey k s).ST = s.ST := rfl
@[simp] theorem setKey_mem (k : Option Nibble) (s : State) : (setKey k s).mem = s.mem := rfl
@[simp] theorem setKey_key (k : Option Nibble) (s : State) : (setKey k s).key = k := rfl
@[simp] theorem setKey_fb (k : Option Nibble) (s : State) : (setKey k s).fb = s.fb := rfl
@[simp] theorem setKey_mode (k : Option Nibble) (s : State) : (setKey k s).mode = s.mode := rfl
@[simp] theorem setKey_romLoaded (k : Option Nibble) (s : State) : (setKey k s).romLoaded = s.romLoaded := rfl
@[simp] theorem setKey_draws (k : Option Nibble) (s : State) : (setKey k s).draws = s.draws := rfl

/-! ### Reading a register after an update -/

@[simp] theorem State.getV_setV_same (s : State) (i : RegIdx) (v : Byte) : (s.setV i v).getV i = v := by
  simp [State.getV, State.setV]

theorem State.getV_setV_ne (s : State) {i j : RegIdx} (v : Byte) (h : j ≠ i) : (s.setV i v).getV j = s.getV j := by
  have : i.val ≠ j.val := fun e => h (Fin.ext e.symm)
  simp [State.getV, State.setV, this]

theorem State.getV_setV (s : State) (i j : RegIdx) (v : Byte) :
    (s.setV i v).getV j = if j = i then v else s.getV j := by
  split
  · next h => rw [h, getV_setV_same]
  · next h => exact getV_setV_ne s v h

@[simp] theorem State.getV_setPc (s : State) (target : Word) (i : RegIdx) : (s.setPc target).getV i = s.getV i := rfl
@[simp] theorem State.getV_setI (s : State) (v : Word) (i : RegIdx) : (s.setI v).getV i = s.getV i := rfl
@[simp] theorem State.getV_setDT (s : State) (v : Byte) (i : RegIdx) : (s.setDT v).getV i = s.getV i := rfl
@[simp] theorem State.getV_setST (s : State) (v : Byte) (i : RegIdx) : (s.setST v).getV i = s.getV i := rfl
@[simp] theorem State.getV_setMode (s : State) (m : Mode) (i : RegIdx) : (s.setMode m).getV i = s.getV i := rfl
@[simp] theorem State.getV_nextDraw (s : State) (i : RegIdx) : s.nextDraw.getV i = s.getV i := rfl
@[simp] theorem State.getV_advance (s : State) (k : Nat) (i : RegIdx) : (s.advance k).getV i = s.getV i := rfl

/-- Two states with the same registers read the same, whatever else differs. -/
theorem State.getV_congr {s t : State} (h : t.V = s.V) (i : RegIdx) : t.getV i = s.getV i := by
  simp [State.getV, h]

/-- Registers that read the same are the same registers. -/
theorem State.V_ext {s t : State} (h : ∀ i, t.getV i = s.getV i) : t.V = s.V :=
  Vector.ext fun i hi => h ⟨i, hi⟩

/-- What the registers read after a result and its flag were written: the flag wins where both meet (R131). -/
theorem State.getV_setVFlag (s : State) (d j : RegIdx) (r f : Byte) :
    (s.setVFlag d r f).getV j = if j = vf then f else if j = d then r else s.getV j := by
  simp only [State.setVFlag, State.getV_setV]

@[simp] theorem State.setVFlag_I (s : State) (d : RegIdx) (r f : Byte) : (s.setVFlag d r f).I = s.I := rfl
@[simp] theorem State.setVFlag_pc (s : State) (d : RegIdx) (r f : Byte) : (s.setVFlag d r f).pc = s.pc := rfl
@[simp] theorem State.setVFlag_stack (s : State) (d : RegIdx) (r f : Byte) : (s.setVFlag d r f).stack = s.stack := rfl
@[simp] theorem State.setVFlag_sp (s : State) (d : RegIdx) (r f : Byte) : (s.setVFlag d r f).sp = s.sp := rfl
@[simp] theorem State.setVFlag_DT (s : State) (d : RegIdx) (r f : Byte) : (s.setVFlag d r f).DT = s.DT := rfl
@[simp] theorem State.setVFlag_ST (s : State) (d : RegIdx) (r f : Byte) : (s.setVFlag d r f).ST = s.ST := rfl
@[simp] theorem State.setVFlag_mem (s : State) (d : RegIdx) (r f : Byte) : (s.setVFlag d r f).mem = s.mem := rfl
@[simp] theorem State.setVFlag_key (s : State) (d : RegIdx) (r f : Byte) : (s.setVFlag d r f).key = s.key := rfl
@[simp] theorem State.setVFlag_fb (s : State) (d : RegIdx) (r f : Byte) : (s.setVFlag d r f).fb = s.fb := rfl
@[simp] theorem State.setVFlag_mode (s : State) (d : RegIdx) (r f : Byte) : (s.setVFlag d r f).mode = s.mode := rfl
@[simp] theorem State.setVFlag_romLoaded (s : State) (d : RegIdx) (r f : Byte) : (s.setVFlag d r f).romLoaded = s.romLoaded := rfl
@[simp] theorem State.setVFlag_draws (s : State) (d : RegIdx) (r f : Byte) : (s.setVFlag d r f).draws = s.draws := rfl

@[simp] theorem State.loadRegsUpTo_I (s : State) (x : RegIdx) (vs : List Byte) :
    (s.loadRegsUpTo x vs).I = s.I := rfl
@[simp] theorem State.loadRegsUpTo_pc (s : State) (x : RegIdx) (vs : List Byte) :
    (s.loadRegsUpTo x vs).pc = s.pc := rfl
@[simp] theorem State.loadRegsUpTo_stack (s : State) (x : RegIdx) (vs : List Byte) :
    (s.loadRegsUpTo x vs).stack = s.stack := rfl
@[simp] theorem State.loadRegsUpTo_sp (s : State) (x : RegIdx) (vs : List Byte) :
    (s.loadRegsUpTo x vs).sp = s.sp := rfl
@[simp] theorem State.loadRegsUpTo_DT (s : State) (x : RegIdx) (vs : List Byte) :
    (s.loadRegsUpTo x vs).DT = s.DT := rfl
@[simp] theorem State.loadRegsUpTo_ST (s : State) (x : RegIdx) (vs : List Byte) :
    (s.loadRegsUpTo x vs).ST = s.ST := rfl
@[simp] theorem State.loadRegsUpTo_mem (s : State) (x : RegIdx) (vs : List Byte) :
    (s.loadRegsUpTo x vs).mem = s.mem := rfl
@[simp] theorem State.loadRegsUpTo_key (s : State) (x : RegIdx) (vs : List Byte) :
    (s.loadRegsUpTo x vs).key = s.key := rfl
@[simp] theorem State.loadRegsUpTo_fb (s : State) (x : RegIdx) (vs : List Byte) :
    (s.loadRegsUpTo x vs).fb = s.fb := rfl
@[simp] theorem State.loadRegsUpTo_mode (s : State) (x : RegIdx) (vs : List Byte) :
    (s.loadRegsUpTo x vs).mode = s.mode := rfl
@[simp] theorem State.loadRegsUpTo_romLoaded (s : State) (x : RegIdx) (vs : List Byte) :
    (s.loadRegsUpTo x vs).romLoaded = s.romLoaded := rfl
@[simp] theorem State.loadRegsUpTo_draws (s : State) (x : RegIdx) (vs : List Byte) :
    (s.loadRegsUpTo x vs).draws = s.draws := rfl

/-- What the registers read after `V[0..x]` were loaded (R156). -/
theorem State.getV_loadRegsUpTo (s : State) (x j : RegIdx) (vs : List Byte) :
    (s.loadRegsUpTo x vs).getV j = if j.val ≤ x.val then vs.getD j.val 0 else s.getV j := by
  simp [State.getV, State.loadRegsUpTo]

/-- The bytes StoreRegs stores (R155). -/
theorem State.regsUpTo_length (s : State) (x : RegIdx) : (s.regsUpTo x).length = x.val + 1 := by
  have := x.isLt
  simp [State.regsUpTo]

/-- The byte StoreRegs stores at offset `i` is `V[i]` (R155). -/
theorem State.regsUpTo_get (s : State) (x i : RegIdx) (h : i.val ≤ x.val) :
    (s.regsUpTo x)[i.val]? = some (s.getV i) := by
  have := i.isLt
  rw [State.regsUpTo, List.getElem?_take_of_lt (by omega)]
  simp [State.getV]

end Sys2Proof.Machine
end

