-- ==== Sys2Proof/Laws/Ops.lean ====
section
/-! SUPPORT. For each shared operation, one lemma that says what it can do; callers cite it and do not unfold. -/

namespace Sys2Proof.Machine

/-! ### Ending a step -/

@[simp] theorem orRaise_ok {α : Type} (v : α) (k : α → Result) : orRaise (.ok v) k = k v := rfl

@[simp] theorem orRaise_error {α : Type} (e : Fault) (k : α → Result) : orRaise (.error e) k = .fault e := rfl

/-- A checked operation goes on exactly when its check passed and what follows goes on. -/
theorem orRaise_next {α : Type} {r : Except Fault α} {k : α → Result} {t : State} :
    orRaise r k = .next t ↔ ∃ v, r = .ok v ∧ k v = .next t := by
  cases r with
  | ok v => simp
  | error e => simp

theorem done_eq (s : State) : s.done = .next (s.advance 2) := rfl

theorem skipIf_eq (s : State) (c : Bool) : s.skipIf c = .next (s.advance (if c then 4 else 2)) := rfl

/-! ### Range-checked memory (R56) -/

/-- The range check passes exactly for an access of no bytes or one that ends inside memory. -/
theorem rangeError_eq (base count : Nat) :
    rangeError base count =
      if count = 0 ∨ base + count ≤ 0x1000 then none else some (.addressOutOfRange (max base 0x1000)) := by
  unfold rangeError
  split
  · next h => rw [if_neg (by omega)]
  · next h => rw [if_pos (by omega)]

theorem memRead_eq (s : State) (base count : Nat) :
    s.memRead base count =
      if count = 0 ∨ base + count ≤ 0x1000 then .ok (s.mem.readList base count)
      else .error (.addressOutOfRange (max base 0x1000)) := by
  unfold State.memRead
  rw [rangeError_eq]
  by_cases h : count = 0 ∨ base + count ≤ 0x1000
  · rw [if_pos h, if_pos h]
  · rw [if_neg h, if_neg h]

theorem memRead_ok (s : State) (base count : Nat) (h : count = 0 ∨ base + count ≤ 0x1000) :
    s.memRead base count = .ok (s.mem.readList base count) := by rw [memRead_eq, if_pos h]

theorem memRead_error (s : State) (base count : Nat) (h0 : 0 < count) (h : 0x1000 < base + count) :
    s.memRead base count = .error (.addressOutOfRange (max base 0x1000)) := by
  rw [memRead_eq, if_neg (by omega)]

theorem memWrite_eq (s : State) (base : Nat) (vs : List Byte) :
    s.memWrite base vs =
      if vs.length = 0 ∨ base + vs.length ≤ 0x1000 then .ok { s with mem := s.mem.writeList base vs }
      else .error (.addressOutOfRange (max base 0x1000)) := by
  unfold State.memWrite
  rw [rangeError_eq]
  by_cases h : vs.length = 0 ∨ base + vs.length ≤ 0x1000
  · rw [if_pos h, if_pos h]
  · rw [if_neg h, if_neg h]

theorem memWrite_ok (s : State) (base : Nat) (vs : List Byte) (h : base + vs.length ≤ 0x1000) :
    s.memWrite base vs = .ok { s with mem := s.mem.writeList base vs } := by rw [memWrite_eq, if_pos (.inr h)]

theorem memWrite_error (s : State) (base : Nat) (vs : List Byte) (h0 : 0 < vs.length)
    (h : 0x1000 < base + vs.length) : s.memWrite base vs = .error (.addressOutOfRange (max base 0x1000)) := by
  rw [memWrite_eq, if_neg (by omega)]

/-- A checked write that passes keeps the memory's canonical form. -/
theorem memWrite_wf {s t : State} {base : Nat} {vs : List Byte} (hs : s.mem.wf) (h : s.memWrite base vs = .ok t) :
    t.mem.wf := by
  rw [memWrite_eq] at h
  split at h
  · next hr =>
    injection h with h
    subst h
    rcases hr with h0 | hr
    · rw [List.length_eq_zero_iff.mp h0]; exact hs
    · exact Memory.wf_writeList hs base vs hr
  · injection h

/-! ### Stack (R25) -/

theorem push_ok (s : State) (v : Word) (h : s.sp.val < 16) :
    s.push v = .ok { s with stack := s.stack.set s.sp.val v, sp := ⟨s.sp.val + 1, by omega⟩ } := by
  simp [State.push, h]

theorem push_full (s : State) (v : Word) (h : s.sp.val = 16) : s.push v = .error .stackOverflow := by
  simp [State.push, h]

theorem pop_ok (s : State) (h : 0 < s.sp.val) :
    s.pop = .ok (s.stack[s.sp.val - 1]'(by have := s.sp.isLt; omega), { s with sp := ⟨s.sp.val - 1, by omega⟩ }) := by
  simp [State.pop, h]

theorem pop_empty (s : State) (h : s.sp.val = 0) : s.pop = .error .stackUnderflow := by
  simp [State.pop, h]

/-! ### Framebuffer (R170) -/

theorem fbGet_fbClear (x y : Nat) : fbGet fbClear x y = false := by
  unfold fbGet fbClear
  split
  · simp
  · rfl

/-- Flipping a pixel changes that pixel, if it lies in the frame, and no other. -/
theorem fbGet_fbFlip (fb : Framebuffer) (x y a b : Nat) :
    fbGet (fbFlip fb x y) a b = (fbGet fb a b ^^ decide (a = x ∧ b = y ∧ x < 64 ∧ y < 32)) := by
  unfold fbFlip
  by_cases h : x < 64 ∧ y < 32
  · rw [dif_pos h]
    unfold fbGet
    by_cases hab : a < 64 ∧ b < 32
    · rw [dif_pos hab, dif_pos hab]
      by_cases hb : b = y
      · subst hb
        by_cases ha : a = x
        · subst ha; simp [h]
        · have : x ≠ a := fun e => ha e.symm
          simp [ha, this]
      · have : y ≠ b := fun e => hb e.symm
        simp [hb, this]
    · rw [dif_neg hab, dif_neg hab]
      have : ¬ (a = x ∧ b = y ∧ x < 64 ∧ y < 32) := fun e => hab (by omega)
      simp [this]
  · rw [dif_neg h]
    have : ¬ (a = x ∧ b = y ∧ x < 64 ∧ y < 32) := fun e => h e.2.2
    simp [this]

/-- Frames whose pixels agree are the same frame. -/
theorem fb_ext {f g : Framebuffer} (h : ∀ x y, x < 64 → y < 32 → fbGet f x y = fbGet g x y) : f = g := by
  apply Vector.ext
  intro y hy
  apply Vector.ext
  intro x hx
  have := h x y hx hy
  simpa [fbGet, hx, hy] using this

theorem plot_fst (c : Canvas) (x y : Nat) : (plot c x y).1 = fbFlip c.1 x y := rfl

theorem plot_snd (c : Canvas) (x y : Nat) : (plot c x y).2 = (c.2 || fbGet c.1 x y) := rfl

/-! ### Fetch and the cycle (R91) -/

theorem fetchWord_eq (s : State) :
    s.fetchWord =
      if s.pc.toNat + 1 ≤ 0xFFF then .ok (wordOfBytes (s.mem.read s.pc.toNat) (s.mem.read (s.pc.toNat + 1)))
      else .error (.addressOutOfRange (max s.pc.toNat 0x1000)) := by
  unfold State.fetchWord
  rw [rangeError_eq]
  by_cases h : s.pc.toNat + 1 ≤ 0xFFF
  · rw [if_pos (by omega), if_pos h]
  · rw [if_neg (by omega), if_neg h]

/-- A Step that answers a next state either resumed (or kept waiting in) LDKR, or fetched, decoded and executed one
instruction in mode Ready. -/
theorem step_next {s t : State} (h : step s = .next t) :
    (∃ x, s.mode = .awaitingKey x ∧ resumeLdkr x s = .next t) ∨
    (∃ i, s.mode = .ready ∧ s.fetchInstr = .ok i ∧ exec i s = .next t) := by
  unfold step cycle at h
  split at h
  · next x hm => exact .inl ⟨x, hm, h⟩
  · next hm =>
    obtain ⟨i, hi, he⟩ := orRaise_next.mp h
    exact .inr ⟨i, hm, hi, he⟩

end Sys2Proof.Machine
end

