-- ==== Sys2Proof/Laws/PerInstr.lean ====
section
/-! SUPPORT. The family TableRow: the word of a well-formed instruction fits the opcode table's row of its mnemonic
(spec/opcode_table.json), one lemma per constructor. -/

namespace Sys2Proof.Laws.TableRow

/-- The row of the instruction's mnemonic is in the table, and the encoded word is that row's. -/
def Statement (i : Instr) : Prop :=
  i.wf = true → ∃ r ∈ opcodeRows, r.mnemonic = i.mnemonic ∧ r.fits (encode i) = true

/-- A word that agrees with a row without exclusions on the bits of its mask is the row's. -/
theorem fits_of_mask {name : String} {w mask pattern : Word} (h : w &&& mask = pattern) :
    (OpcodeRow.mk name mask pattern []).fits w = true := by
  simp [OpcodeRow.fits, h]

theorem cls : Statement .cls := fun _ =>
  ⟨OpcodeRow.mk "CLS" 0xFFFF#16 0x00E0#16 [], by decide, rfl, fits_of_mask rfl⟩

theorem ret : Statement .ret := fun _ =>
  ⟨OpcodeRow.mk "RET" 0xFFFF#16 0x00EE#16 [], by decide, rfl, fits_of_mask rfl⟩

theorem sys (nnn : Addr12) : Statement (.sys nnn) := fun h => by
  refine ⟨OpcodeRow.mk "SYS" 0xF000#16 0x0000#16 [0x00E0#16, 0x00EE#16], by decide, rfl, ?_⟩
  simp only [Instr.wf, Bool.and_eq_true, bne_iff_ne, ne_eq] at h
  have hne : ∀ c : Addr12, nnn ≠ c → layoutA 0x0#4 nnn ≠ layoutA 0x0#4 c := fun c hc e =>
    hc (by rw [← fieldNNN_layoutA 0x0#4 nnn, e, fieldNNN_layoutA])
  have h1 := hne _ h.1
  have h2 := hne _ h.2
  simp only [show layoutA 0x0#4 0x0E0#12 = 0x00E0#16 from rfl] at h1
  simp only [show layoutA 0x0#4 0x0EE#12 = 0x00EE#16 from rfl] at h2
  simp [OpcodeRow.fits, encode, layoutA_mask, h1, h2]

theorem jp (nnn : Addr12) : Statement (.jp nnn) := fun _ =>
  ⟨OpcodeRow.mk "JP" 0xF000#16 0x1000#16 [], by decide, rfl,
    fits_of_mask (by rw [encode, layoutA_mask]; rfl)⟩

theorem call (nnn : Addr12) : Statement (.call nnn) := fun _ =>
  ⟨OpcodeRow.mk "CALL" 0xF000#16 0x2000#16 [], by decide, rfl,
    fits_of_mask (by rw [encode, layoutA_mask]; rfl)⟩

theorem skipIfEqByte (x : RegIdx) (kk : Byte) : Statement (.skipIfEqByte x kk) := fun _ =>
  ⟨OpcodeRow.mk "SkipIfEqByte" 0xF000#16 0x3000#16 [], by decide, rfl,
    fits_of_mask (by rw [encode, layoutXK_mask_op]; rfl)⟩

theorem skipIfNotEqByte (x : RegIdx) (kk : Byte) : Statement (.skipIfNotEqByte x kk) := fun _ =>
  ⟨OpcodeRow.mk "SkipIfNotEqByte" 0xF000#16 0x4000#16 [], by decide, rfl,
    fits_of_mask (by rw [encode, layoutXK_mask_op]; rfl)⟩

theorem skipIfEqReg (x : RegIdx) (y : RegIdx) : Statement (.skipIfEqReg x y) := fun _ =>
  ⟨OpcodeRow.mk "SkipIfEqReg" 0xF00F#16 0x5000#16 [], by decide, rfl,
    fits_of_mask (by rw [encode, layoutXY_mask]; rfl)⟩

theorem loadByte (x : RegIdx) (kk : Byte) : Statement (.loadByte x kk) := fun _ =>
  ⟨OpcodeRow.mk "LoadByte" 0xF000#16 0x6000#16 [], by decide, rfl,
    fits_of_mask (by rw [encode, layoutXK_mask_op]; rfl)⟩

theorem addByte (x : RegIdx) (kk : Byte) : Statement (.addByte x kk) := fun _ =>
  ⟨OpcodeRow.mk "AddByte" 0xF000#16 0x7000#16 [], by decide, rfl,
    fits_of_mask (by rw [encode, layoutXK_mask_op]; rfl)⟩

theorem loadReg (x : RegIdx) (y : RegIdx) : Statement (.loadReg x y) := fun _ =>
  ⟨OpcodeRow.mk "LoadReg" 0xF00F#16 0x8000#16 [], by decide, rfl,
    fits_of_mask (by rw [encode, layoutXY_mask]; rfl)⟩

theorem or (x : RegIdx) (y : RegIdx) : Statement (.or x y) := fun _ =>
  ⟨OpcodeRow.mk "Or" 0xF00F#16 0x8001#16 [], by decide, rfl,
    fits_of_mask (by rw [encode, layoutXY_mask]; rfl)⟩

theorem and (x : RegIdx) (y : RegIdx) : Statement (.and x y) := fun _ =>
  ⟨OpcodeRow.mk "And" 0xF00F#16 0x8002#16 [], by decide, rfl,
    fits_of_mask (by rw [encode, layoutXY_mask]; rfl)⟩

theorem xor (x : RegIdx) (y : RegIdx) : Statement (.xor x y) := fun _ =>
  ⟨OpcodeRow.mk "Xor" 0xF00F#16 0x8003#16 [], by decide, rfl,
    fits_of_mask (by rw [encode, layoutXY_mask]; rfl)⟩

theorem addReg (x : RegIdx) (y : RegIdx) : Statement (.addReg x y) := fun _ =>
  ⟨OpcodeRow.mk "AddReg" 0xF00F#16 0x8004#16 [], by decide, rfl,
    fits_of_mask (by rw [encode, layoutXY_mask]; rfl)⟩

theorem sub (x : RegIdx) (y : RegIdx) : Statement (.sub x y) := fun _ =>
  ⟨OpcodeRow.mk "Sub" 0xF00F#16 0x8005#16 [], by decide, rfl,
    fits_of_mask (by rw [encode, layoutXY_mask]; rfl)⟩

theorem shr (x : RegIdx) (y : RegIdx) : Statement (.shr x y) := fun _ =>
  ⟨OpcodeRow.mk "Shr" 0xF00F#16 0x8006#16 [], by decide, rfl,
    fits_of_mask (by rw [encode, layoutXY_mask]; rfl)⟩

theorem subn (x : RegIdx) (y : RegIdx) : Statement (.subn x y) := fun _ =>
  ⟨OpcodeRow.mk "Subn" 0xF00F#16 0x8007#16 [], by decide, rfl,
    fits_of_mask (by rw [encode, layoutXY_mask]; rfl)⟩

theorem shl (x : RegIdx) (y : RegIdx) : Statement (.shl x y) := fun _ =>
  ⟨OpcodeRow.mk "Shl" 0xF00F#16 0x800E#16 [], by decide, rfl,
    fits_of_mask (by rw [encode, layoutXY_mask]; rfl)⟩

theorem skipIfNotEqReg (x : RegIdx) (y : RegIdx) : Statement (.skipIfNotEqReg x y) := fun _ =>
  ⟨OpcodeRow.mk "SkipIfNotEqReg" 0xF00F#16 0x9000#16 [], by decide, rfl,
    fits_of_mask (by rw [encode, layoutXY_mask]; rfl)⟩

theorem loadIndex (nnn : Addr12) : Statement (.loadIndex nnn) := fun _ =>
  ⟨OpcodeRow.mk "LoadIndex" 0xF000#16 0xA000#16 [], by decide, rfl,
    fits_of_mask (by rw [encode, layoutA_mask]; rfl)⟩

theorem jumpPlusV0 (nnn : Addr12) : Statement (.jumpPlusV0 nnn) := fun _ =>
  ⟨OpcodeRow.mk "JumpPlusV0" 0xF000#16 0xB000#16 [], by decide, rfl,
    fits_of_mask (by rw [encode, layoutA_mask]; rfl)⟩

theorem random (x : RegIdx) (kk : Byte) : Statement (.random x kk) := fun _ =>
  ⟨OpcodeRow.mk "Random" 0xF000#16 0xC000#16 [], by decide, rfl,
    fits_of_mask (by rw [encode, layoutXK_mask_op]; rfl)⟩

theorem draw (x : RegIdx) (y : RegIdx) (n : Fin 16) : Statement (.draw x y n) := fun _ =>
  ⟨OpcodeRow.mk "Draw" 0xF000#16 0xD000#16 [], by decide, rfl,
    fits_of_mask (by rw [encode, layoutXY_mask_op]; rfl)⟩

theorem skipIfKey (x : RegIdx) : Statement (.skipIfKey x) := fun _ =>
  ⟨OpcodeRow.mk "SkipIfKey" 0xF0FF#16 0xE09E#16 [], by decide, rfl,
    fits_of_mask (by rw [encode, layoutXK_mask]; rfl)⟩

theorem skipIfNotKey (x : RegIdx) : Statement (.skipIfNotKey x) := fun _ =>
  ⟨OpcodeRow.mk "SkipIfNotKey" 0xF0FF#16 0xE0A1#16 [], by decide, rfl,
    fits_of_mask (by rw [encode, layoutXK_mask]; rfl)⟩

theorem loadDelay (x : RegIdx) : Statement (.loadDelay x) := fun _ =>
  ⟨OpcodeRow.mk "LoadDelay" 0xF0FF#16 0xF007#16 [], by decide, rfl,
    fits_of_mask (by rw [encode, layoutXK_mask]; rfl)⟩

theorem ldkr (x : RegIdx) : Statement (.ldkr x) := fun _ =>
  ⟨OpcodeRow.mk "LDKR" 0xF0FF#16 0xF00A#16 [], by decide, rfl,
    fits_of_mask (by rw [encode, layoutXK_mask]; rfl)⟩

theorem setDelay (x : RegIdx) : Statement (.setDelay x) := fun _ =>
  ⟨OpcodeRow.mk "SetDelay" 0xF0FF#16 0xF015#16 [], by decide, rfl,
    fits_of_mask (by rw [encode, layoutXK_mask]; rfl)⟩

theorem setSound (x : RegIdx) : Statement (.setSound x) := fun _ =>
  ⟨OpcodeRow.mk "SetSound" 0xF0FF#16 0xF018#16 [], by decide, rfl,
    fits_of_mask (by rw [encode, layoutXK_mask]; rfl)⟩

theorem addri (x : RegIdx) : Statement (.addri x) := fun _ =>
  ⟨OpcodeRow.mk "ADDRI" 0xF0FF#16 0xF01E#16 [], by decide, rfl,
    fits_of_mask (by rw [encode, layoutXK_mask]; rfl)⟩

theorem ldsi (x : RegIdx) : Statement (.ldsi x) := fun _ =>
  ⟨OpcodeRow.mk "LDSI" 0xF0FF#16 0xF029#16 [], by decide, rfl,
    fits_of_mask (by rw [encode, layoutXK_mask]; rfl)⟩

theorem storeBCD (x : RegIdx) : Statement (.storeBCD x) := fun _ =>
  ⟨OpcodeRow.mk "StoreBCD" 0xF0FF#16 0xF033#16 [], by decide, rfl,
    fits_of_mask (by rw [encode, layoutXK_mask]; rfl)⟩

theorem storeRegs (x : RegIdx) : Statement (.storeRegs x) := fun _ =>
  ⟨OpcodeRow.mk "StoreRegs" 0xF0FF#16 0xF055#16 [], by decide, rfl,
    fits_of_mask (by rw [encode, layoutXK_mask]; rfl)⟩

theorem loadRegs (x : RegIdx) : Statement (.loadRegs x) := fun _ =>
  ⟨OpcodeRow.mk "LoadRegs" 0xF0FF#16 0xF065#16 [], by decide, rfl,
    fits_of_mask (by rw [encode, layoutXK_mask]; rfl)⟩

end Sys2Proof.Laws.TableRow
end

