-- ==== Sys2Proof/Tests/Slice0.lean ====
section
/-! SUPPORT. Tests: the well-formedness check refuses ill-formed terms; a word of every constructor, written out from
spec/30_encoding.md R72 and R75, decodes to it; Steps from the vectors of spec/95_test_vectors.md (named in each
docstring); and for every statement with hypotheses a witness that meets them, at the values where its clauses meet. -/

namespace Sys2Proof.Tests

open Sys2Proof Sys2Proof.Machine Sys2Proof.Claims

/-! ### Small states -/

/-- The base state of 95_test_vectors.md section 0, before a word is placed. -/
def ready : State := { State.reset with romLoaded := true, pc := 0x200 }

/-- The base state with a word at 0x200. -/
def base (w : Word) : State := placeWord ready w

/-- Set some registers. -/
def regs (s : State) (l : List (RegIdx × Byte)) : State := l.foldl (fun s p => s.setV p.1 p.2) s

/-- Set some bytes of memory. -/
def poke (s : State) (a : Nat) (vs : List Byte) : State := { s with mem := s.mem.writeList a vs }

/-- The next state of an answer, if it is one. -/
def after : Result → Option State
  | .next t => some t
  | .fault _ => none
  | .refused _ => none

/-- The error of an answer, if it is one. -/
def faultOf : Result → Option Fault
  | .next _ => none
  | .fault e => some e
  | .refused _ => none

/-- What is read off the next state. -/
def see {α : Type} (r : Result) (f : State → α) : Option α := (after r).map f

/-! ### WellFormed (R74, R111) -/

theorem test_wf_refuses_sys_00E0 : (Instr.sys 0x0E0).wf = false := by decide
theorem test_wf_refuses_sys_00EE : (Instr.sys 0x0EE).wf = false := by decide
theorem test_wf_accepts_sys_00E1 : (Instr.sys 0x0E1).wf = true := by decide

/-! ### Decoding, every constructor, bit by bit from R72 and R75 -/

theorem test_decode_control :
    decodeWord 0b0000_0000_1110_1110#16 = .ok .ret ∧
    decodeWord 0b0000_0001_0010_0011#16 = .ok (.sys 0x123) ∧
    decodeWord 0b0001_0010_0011_0100#16 = .ok (.jp 0x234) ∧
    decodeWord 0b0010_0011_0000_0000#16 = .ok (.call 0x300) ∧
    decodeWord 0b0011_0001_0001_0010#16 = .ok (.skipIfEqByte 1 0x12) ∧
    decodeWord 0b0100_0001_0001_0011#16 = .ok (.skipIfNotEqByte 1 0x13) ∧
    decodeWord 0b0101_0001_0010_0000#16 = .ok (.skipIfEqReg 1 2) ∧
    decodeWord 0b1001_0001_0010_0000#16 = .ok (.skipIfNotEqReg 1 2) ∧
    decodeWord 0b1011_0011_0000_0000#16 = .ok (.jumpPlusV0 0x300) := by decide

theorem test_decode_alu :
    decodeWord 0b0110_1010_0000_1100#16 = .ok (.loadByte 10 0x0C) ∧
    decodeWord 0b0111_1111_1111_1111#16 = .ok (.addByte 15 0xFF) ∧
    decodeWord 0b1000_0001_0010_0000#16 = .ok (.loadReg 1 2) ∧
    decodeWord 0b1000_1111_0000_0001#16 = .ok (.or 15 0) ∧
    decodeWord 0b1000_0001_0010_0010#16 = .ok (.and 1 2) ∧
    decodeWord 0b1000_0001_0010_0011#16 = .ok (.xor 1 2) ∧
    decodeWord 0b1000_1111_0001_0100#16 = .ok (.addReg 15 1) ∧
    decodeWord 0b1000_0001_0010_0101#16 = .ok (.sub 1 2) ∧
    decodeWord 0b1000_0001_1111_0110#16 = .ok (.shr 1 15) ∧
    decodeWord 0b1000_0001_1111_0111#16 = .ok (.subn 1 15) ∧
    decodeWord 0b1000_0001_0000_1110#16 = .ok (.shl 1 0) ∧
    decodeWord 0b1100_0011_0000_1111#16 = .ok (.random 3 0x0F) := by decide

theorem test_decode_memory :
    decodeWord 0b1010_0010_1111_0000#16 = .ok (.loadIndex 0x2F0) ∧
    decodeWord 0b1111_0011_0001_1110#16 = .ok (.addri 3) ∧
    decodeWord 0b1111_0010_0010_1001#16 = .ok (.ldsi 2) ∧
    decodeWord 0b1111_0011_0011_0011#16 = .ok (.storeBCD 3) ∧
    decodeWord 0b1111_0010_0101_0101#16 = .ok (.storeRegs 2) ∧
    decodeWord 0b1111_0010_0110_0101#16 = .ok (.loadRegs 2) := by decide

theorem test_decode_display_keys_timers :
    decodeWord 0b0000_0000_1110_0000#16 = .ok .cls ∧
    decodeWord 0b1101_0000_0001_0010#16 = .ok (.draw 0 1 2) ∧
    decodeWord 0b1110_0010_1001_1110#16 = .ok (.skipIfKey 2) ∧
    decodeWord 0b1110_0001_1010_0001#16 = .ok (.skipIfNotKey 1) ∧
    decodeWord 0b1111_0001_0000_0111#16 = .ok (.loadDelay 1) ∧
    decodeWord 0b1111_0011_0000_1010#16 = .ok (.ldkr 3) ∧
    decodeWord 0b1111_0011_0001_0101#16 = .ok (.setDelay 3) ∧
    decodeWord 0b1111_0100_0001_1000#16 = .ok (.setSound 4) := by decide

/-- The encoder lays the fields out where R72 puts them. -/
theorem test_encode : encode (.draw 0 1 2) = 0xD012#16 ∧ encode (.subn 1 15) = 0x81F7#16 ∧
    encode (.jumpPlusV0 0x3AB) = 0xB3AB#16 ∧ encode (.skipIfNotKey 7) = 0xE7A1#16 := by decide

/-- F1 to F6, F13: rejected words, and the exact words that win over `0nnn`. -/
theorem test_decode_rejects : decodeWord 0x8128#16 = .error (.noPattern 0x8128) ∧
    decodeWord 0x5121#16 = .error (.noPattern 0x5121) ∧ decodeWord 0x9121#16 = .error (.noPattern 0x9121) ∧
    decodeWord 0xE1A2#16 = .error (.noPattern 0xE1A2) ∧ decodeWord 0xF1FF#16 = .error (.noPattern 0xF1FF) ∧
    decodeWord 0x800F#16 = .error (.noPattern 0x800F) ∧ decodeWord 0x00E1#16 = .ok (.sys 0x0E1) := by decide

/-- Decoding takes two bytes and leaves the rest; one byte is refused by name. -/
theorem test_decodeBytes : decodeBytes [0x6A, 0x0C, 0xFF] = .ok (.loadByte 10 0x0C, [0xFF]) ∧
    decodeBytes [0x6A] = .error .truncated := by decide

theorem test_decodeTableWord : decodeTableWord 16 0xD012 = some (.draw 0 1 2) ∧
    decodeTableWord 16 0x5121 = none := by decide

/-! ### Fetch (95_test_vectors.md 2.1) -/

/-- F7 and F9: fetching past the end of memory; the reported address. -/
theorem test_fetch_range : faultOf (step { ready with pc := 0xFFF }) = some (.addressOutOfRange 0x1000) ∧
    faultOf (step { ready with pc := 0x10FE }) = some (.addressOutOfRange 0x10FE) := by decide

/-- F10: an odd `pc` fetches the two bytes there. -/
theorem test_fetch_odd : see (step (poke { ready with pc := 0x201 } 0x201 [0x61, 0x07])) (fun t => (t.getV 1, t.pc)) =
    some (0x07, 0x203) := by decide

/-- F12: after Reset, with no ROM, the first word is the font's 0xF090. -/
theorem test_fetch_after_reset : faultOf (step State.reset) = some (.decodeError 0xF090) := by decide

/-- withFetchWord places the word where the next Step fetches it, after reset and past the end of memory. -/
theorem test_withFetchWord : see (step (State.reset.withFetchWord 16 0x6A0C)) (fun t => (t.getV 10, t.pc)) =
      some (0x0C, 0x002) ∧
    see (step ({ ready with pc := 0xFFF }.withFetchWord 16 0x6A0C)) (fun t => (t.getV 10, t.pc)) =
      some (0x0C, 0x202) := by decide

/-! ### Control flow (95_test_vectors.md 2.2) -/

/-- C1. -/
theorem test_sys : see (step (base 0x0123)) (fun t => (t.pc, t.sp)) = some (0x202, 0) := by decide

/-- F11: SYS at the last word of memory. -/
theorem test_sys_last_word : see (step { ready with pc := 0xFFE }) (·.pc) = some 0x1000 := by decide

/-- C11. -/
theorem test_ret : see (step { base 0x00EE with sp := 2, stack := (ready.stack.set 0 0x202).set 1 0x40A })
    (fun t => (t.pc, t.sp, t.stack[1])) = some (0x40A, 1, 0x40A) := by decide

/-- C10. -/
theorem test_ret_empty : faultOf (step (base 0x00EE)) = some .stackUnderflow := by decide

/-- C3. -/
theorem test_jp : see (step (base 0x1234)) (·.pc) = some 0x234 := by decide

/-- C4: a jump to itself. -/
theorem test_jp_self : after (step (base 0x1200)) = some (base 0x1200) := by decide

/-- C7: the sixteenth entry. -/
theorem test_call : see (step { base 0x2300 with sp := 15 }) (fun t => (t.pc, t.sp, t.stack[15])) =
    some (0x300, 16, 0x202) := by decide

/-- C8. -/
theorem test_call_full : faultOf (step { base 0x2300 with sp := 16 }) = some .stackOverflow := by decide

/-- C12, C13. -/
theorem test_skipIfEqByte : see (step (regs (base 0x3112) [(1, 0x12)])) (·.pc) = some 0x204 ∧
    see (step (regs (base 0x3113) [(1, 0x12)])) (·.pc) = some 0x202 := by decide

/-- C14, C15. -/
theorem test_skipIfNotEqByte : see (step (regs (base 0x4112) [(1, 0x12)])) (·.pc) = some 0x202 ∧
    see (step (regs (base 0x4113) [(1, 0x12)])) (·.pc) = some 0x204 := by decide

/-- C16, C17. -/
theorem test_skipIfEqReg : see (step (regs (base 0x5120) [(1, 7), (2, 7)])) (·.pc) = some 0x204 ∧
    see (step (regs (base 0x5120) [(1, 7), (2, 8)])) (·.pc) = some 0x202 := by decide

/-- C18, C19. -/
theorem test_skipIfNotEqReg : see (step (regs (base 0x9120) [(1, 7), (2, 8)])) (·.pc) = some 0x204 ∧
    see (step (regs (base 0x9120) [(1, 7), (2, 7)])) (·.pc) = some 0x202 := by decide

/-- C22: the target is not reduced to 12 bits. -/
theorem test_jumpPlusV0 : see (step (regs (base 0xBFFF) [(0, 0xFF)])) (·.pc) = some 0x10FE := by decide

/-! ### Registers and arithmetic (95_test_vectors.md 2.3) -/

/-- S1. -/
theorem test_loadByte : see (step (base 0x6A0C)) (fun t => (t.getV 10, t.pc)) = some (0x0C, 0x202) := by decide

/-- A3: no carry flag. -/
theorem test_addByte : see (step (regs (base 0x7120) [(1, 0xF0), (15, 0x55)])) (fun t => (t.getV 1, t.getV 15)) =
    some (0x10, 0x55) := by decide

/-- A2: into `VF` as a register. -/
theorem test_addByte_vf : see (step (regs (base 0x7FFF) [(15, 1)])) (·.getV 15) = some 0 := by decide

/-- A4. -/
theorem test_loadReg : see (step (regs (base 0x8120) [(2, 0x5A)])) (fun t => (t.getV 1, t.getV 2)) =
    some (0x5A, 0x5A) := by decide

/-- A6. -/
theorem test_or : see (step (regs (base 0x8121) [(1, 0xCC), (2, 0xAA), (15, 9)])) (fun t => (t.getV 1, t.getV 15)) =
    some (0xEE, 9) := by decide

/-- A5: into `VF` as a register. -/
theorem test_or_vf : see (step (regs (base 0x8F01) [(0, 0xF0), (15, 0x0F)])) (·.getV 15) = some 0xFF := by decide

/-- A6. -/
theorem test_and : see (step (regs (base 0x8122) [(1, 0xCC), (2, 0xAA), (15, 9)])) (fun t => (t.getV 1, t.getV 15)) =
    some (0x88, 9) := by decide

/-- A6. -/
theorem test_xor : see (step (regs (base 0x8123) [(1, 0xCC), (2, 0xAA), (15, 9)])) (fun t => (t.getV 1, t.getV 15)) =
    some (0x66, 9) := by decide

/-- A7, A8. -/
theorem test_addReg : see (step (regs (base 0x8124) [(1, 0xFF), (2, 1)])) (fun t => (t.getV 1, t.getV 15)) =
      some (0x00, 1) ∧
    see (step (regs (base 0x8124) [(1, 0xFE), (2, 1), (15, 9)])) (fun t => (t.getV 1, t.getV 15)) =
      some (0xFF, 0) := by decide

/-- A10: the flag is written last. -/
theorem test_addReg_vf : see (step (regs (base 0x8F14) [(1, 1), (15, 0xFF)])) (·.getV 15) = some 1 := by decide

/-- A11, A12: a strict comparison. -/
theorem test_sub : see (step (regs (base 0x8125) [(1, 5), (2, 3)])) (fun t => (t.getV 1, t.getV 15)) = some (2, 1) ∧
    see (step (regs (base 0x8125) [(1, 7), (2, 7), (15, 9)])) (fun t => (t.getV 1, t.getV 15)) = some (0, 0) := by decide

/-- A13. -/
theorem test_sub_borrow : see (step (regs (base 0x8125) [(1, 3), (2, 5), (15, 9)])) (fun t => (t.getV 1, t.getV 15)) =
    some (0xFE, 0) := by decide

/-- A14. -/
theorem test_subn : see (step (regs (base 0x8127) [(1, 3), (2, 5)])) (fun t => (t.getV 1, t.getV 2, t.getV 15)) =
    some (3, 2, 1) := by decide

/-- A16: `y` is `VF`. -/
theorem test_subn_vf : see (step (regs (base 0x81F7) [(1, 2), (15, 7)])) (fun t => (t.getV 1, t.getV 15)) =
    some (2, 1) := by decide

/-- A17. -/
theorem test_shr : see (step (regs (base 0x8106) [(1, 5)])) (fun t => (t.getV 1, t.getV 15)) = some (2, 1) := by decide

/-- A18: `V[y]` is not read. -/
theorem test_shr_y : see (step (regs (base 0x8126) [(1, 4), (2, 0xFF), (15, 9)])) (fun t => (t.getV 1, t.getV 15)) =
    some (2, 0) := by decide

/-- A20. -/
theorem test_shl : see (step (regs (base 0x810E) [(1, 0x81)])) (fun t => (t.getV 1, t.getV 15)) =
    some (2, 1) := by decide

/-- A21. -/
theorem test_shl_no_bit : see (step (regs (base 0x810E) [(1, 0x40), (15, 9)])) (fun t => (t.getV 1, t.getV 15)) =
    some (0x80, 0) := by decide

/-- A23, A24, for any random byte: the mask is applied to the byte of this draw. -/
theorem test_random : see (step (base 0xC30F)) (fun t => (t.getV 3, t.draws)) = some (0x0F &&& Config.draw8 0, 1) := rfl

/-- A25: the mask 0 leaves 0, whatever the byte. -/
theorem test_random_zero (s : State) : see (exec (.random 3 0) s) (·.getV 3) = some 0 := by
  show some ((s.nextDraw.setV 3 (0 &&& Config.draw8 s.draws)).getV 3) = some 0
  simp [State.getV, State.setV]

/-! ### Index register and memory (95_test_vectors.md 2.4) -/

/-- S2. -/
theorem test_loadIndex : see (step (base 0xA2F0)) (·.I) = some 0x2F0 := by decide

/-- I4, I5: the wrap is at 16 bits. -/
theorem test_addri : see (step (regs { base 0xF01E with I := 0xFFF } [(0, 1)])) (·.I) = some 0x1000 ∧
    see (step (regs { base 0xF01E with I := 0xFFFF } [(0, 2), (15, 0x77)])) (fun t => (t.I, t.getV 15)) =
      some (1, 0x77) := by decide

/-- I7: `V[x]` is not masked. -/
theorem test_ldsi : see (step (regs (base 0xF029) [(0, 0xFF)])) (·.I) = some 0x4FB := by decide

/-- S3, at the top of memory (I12). -/
theorem test_storeBCD : see (step (regs { base 0xF333 with I := 0xFFD } [(3, 234)]))
    (fun t => (t.mem.readList 0xFFD 3, t.I)) = some ([2, 3, 4], 0xFFD) := by decide

/-- I13. -/
theorem test_storeBCD_range : faultOf (step { base 0xF033 with I := 0xFFE }) = some (.addressOutOfRange 0x1000) := by
  decide

/-- I14, and the byte after the last is left alone. -/
theorem test_storeRegs : see (step (poke (regs { base 0xF255 with I := 0x400 } [(0, 1), (1, 2), (2, 3), (3, 4)]) 0x403 [9]))
    (fun t => (t.mem.readList 0x400 4, t.I)) = some ([1, 2, 3, 9], 0x400) := by decide

/-- I16. -/
theorem test_storeRegs_range : faultOf (step { base 0xFF55 with I := 0xFF1 }) = some (.addressOutOfRange 0x1000) := by
  decide

/-- I17. -/
theorem test_loadRegs : see (step (poke (regs { base 0xF265 with I := 0x300 } [(3, 0x99)]) 0x300 [2, 3, 4, 5]))
    (fun t => (t.getV 0, t.getV 1, t.getV 2, t.getV 3, t.I)) = some (2, 3, 4, 0x99, 0x300) := by decide

/-- I18. -/
theorem test_loadRegs_range : faultOf (step { base 0xF065 with I := 0x1000 }) = some (.addressOutOfRange 0x1000) := by
  decide

/-- The font byte of the glyph 1 at reset (R52), overwritten and written back: the cells are gone again (log 3). -/
theorem test_memory_canonical : State.reset.mem.read 5 = 0x20 ∧
    ((State.reset.mem.writeList 5 [0xAA]).writeList 5 [0x20]) = State.reset.mem := by decide

/-! ### Display (95_test_vectors.md 2.5) -/

/-- G1: the pixel in the corner is cleared, `VF` is left alone. -/
theorem test_cls : see (step (regs { base 0x00E0 with fb := fbFlip fbClear 63 31 } [(15, 7)]))
    (fun t => (fbGet t.fb 63 31, t.getV 15, t.pc)) = some (false, 7, 0x202) := by decide

/-- G3: the right edge clips. -/
theorem test_draw_clips : see (step (poke (regs { base 0xD011 with I := 0x300 } [(0, 60), (15, 9)]) 0x300 [0xFF]))
    (fun t => (fbGet t.fb 60 0, fbGet t.fb 63 0, fbGet t.fb 0 0, fbGet t.fb 59 0, t.getV 15)) =
    some (true, true, false, false, 0) := by decide

/-- G7, G11: a set pixel is unset and reported; a clear sprite bit leaves its pixel. -/
theorem test_draw_collides :
    see (step (poke (regs { base 0xD011 with I := 0x300, fb := fbFlip (fbFlip fbClear 4 0) 5 0 } [(0, 4)]) 0x300 [0xA0]))
    (fun t => (fbGet t.fb 4 0, fbGet t.fb 5 0, fbGet t.fb 6 0, t.getV 15)) = some (false, true, true, 1) := by decide

/-! ### Keys and timers (95_test_vectors.md 2.6) -/

/-- K3, K2: the low nibble only; no key matches nothing. -/
theorem test_skipIfKey : see (step (regs { base 0xE19E with key := some 5 } [(1, 0x15)])) (·.pc) = some 0x204 ∧
    see (step (base 0xE29E)) (·.pc) = some 0x202 := by decide

/-- K4, K6. -/
theorem test_skipIfNotKey : see (step (regs { base 0xE2A1 with key := some 5 } [(2, 5)])) (·.pc) = some 0x202 ∧
    see (step (base 0xE1A1)) (·.pc) = some 0x204 := by decide

/-- K7: entry, with a key held. -/
theorem test_ldkr_entry : see (step { base 0xF30A with key := some 7 }) (fun t => (t.mode, t.pc, t.getV 3)) =
    some (.awaitingKey 3, 0x200, 0) ∧ stepResult { base 0xF30A with key := some 7 } = .waiting := by decide

/-- K8, K12: resumption. -/
theorem test_ldkr_resume : see (step { base 0xFF0A with mode := .awaitingKey 15, key := some 0xC })
    (fun t => (t.getV 15, t.mode, t.pc, t.key)) = some (0x0C, .ready, 0x202, some 0xC) ∧
    stepResult { base 0xFF0A with mode := .awaitingKey 15, key := some 0xC } = .executed (.ldkr 15) := by decide

/-- K14. -/
theorem test_loadDelay : see (step { base 0xF107 with DT := 0x3C, ST := 1 }) (fun t => (t.getV 1, t.DT)) =
    some (0x3C, 0x3C) := by decide

/-- K15. -/
theorem test_setDelay : see (step (regs (base 0xF315) [(3, 5)])) (fun t => (t.DT, t.ST)) = some (5, 0) := by decide

/-- K17. -/
theorem test_setSound : see (step (regs (base 0xF418) [(4, 0x10)])) (fun t => (t.ST, t.DT)) = some (0x10, 0) := by decide

/-- S6, K18: a tick, and the floor. -/
theorem test_tick : (tickTimers { ready with DT := 5, ST := 0 }).DT = 4 ∧
    (tickTimers { ready with DT := 5, ST := 0 }).ST = 0 := by decide

/-! ### Load, reset, reads (95_test_vectors.md 2.7) -/

/-- L5 and a ROM of two bytes. -/
theorem test_loadRom : see (loadRom [0x12, 0x34] State.reset) (fun t => (t.mem.readList 0x200 3, t.pc, t.romLoaded)) =
    some ([0x12, 0x34, 0], 0x200, true) := by decide

/-- L3. -/
theorem test_loadRom_again : faultOf (loadRom [0x12, 0x34] ready) = some .alreadyLoaded := by decide

/-- L2: one byte too many. -/
theorem test_loadRom_too_large : faultOf (loadRom (List.replicate 3585 0x12) State.reset) = some .romTooLarge := by
  rw [loadRom, if_neg (by decide), if_pos (by rw [List.length_replicate]; decide)]
  rfl

/-- L6. -/
theorem test_reset : hostReset (poke (regs { base 0x6A0C with sp := 3, mode := .awaitingKey 2, key := some 4 } [(1, 9)])
    0x300 [7]) = State.reset := by decide

/-- L8: row-major. -/
theorem test_readFramebuffer : (readFramebuffer { ready with fb := fbFlip fbClear 0 1 })[64]? = some 1 ∧
    (readFramebuffer { ready with fb := fbFlip fbClear 0 1 })[1]? = some 0 := by decide

/-- L9, and an error's reply and code (R200). -/
theorem test_replies : (runHostOp .readTimers { ready with DT := 3, ST := 4 }).1 = .timers 3 4 ∧
    (runHostOp .step (base 0x00EE)).1 = .stepped (.error .stackUnderflow) ∧ Fault.stackUnderflow.code = 2 := by decide

/-! ### Witnesses: concrete states and operands that meet the hypotheses of each statement -/

/-- Well-formed instructions, SYS next to the two excluded words among them. -/
theorem witness_DecodeOfEncode : (Instr.sys 0x0E1).wf = true ∧ (Instr.draw 15 15 15).wf = true := by decide

theorem witness_EncodeOfDecode : decodeWord 0x81F6#16 = .ok (.shr 1 15) ∧ decodeWord 0x00EF#16 = .ok (.sys 0x0EF) := by
  decide

/-- An illegal word and its legal neighbour, in each of the five groups. -/
theorem witness_DecoderIsTheDispatch :
    (0x0E1#12 ≠ 0x0E0#12 ∧ 0x0E1#12 ≠ 0x0EE#12) ∧
    (Illegal 0x5001 ∧ ¬ Illegal 0x5000) ∧ (Illegal 0x8008 ∧ ¬ Illegal 0x8007) ∧ (Illegal 0x9001 ∧ ¬ Illegal 0x9000) ∧
    (Illegal 0xE09D ∧ ¬ Illegal 0xE09E) ∧ (Illegal 0xF066 ∧ ¬ Illegal 0xF065) := by
  refine ⟨by decide, ?_, ?_, ?_, ?_, ?_⟩ <;> simp only [Illegal] <;> decide

/-- The last word of memory that can be fetched. -/
theorem witness_StepRunsTheDecodedInstruction :
    let s := placeWord { ready with pc := 0xFFE } 0x6A0C
    s.mode = .ready ∧ s.pc.toNat = 0xFFE ∧ s.pc.toNat + 1 ≤ 0xFFF ∧
      decodeWord (wordAt s s.pc.toNat) = .ok (.loadByte 10 0x0C) := by decide

/-- A clause each: fetching at 0xFFF, an illegal word, a wait. -/
theorem witness_StepFailsBeforeExecution :
    (let s := { ready with pc := 0xFFF }; s.mode = .ready ∧ 0xFFF < s.pc.toNat + 1) ∧
    (let s := base 0x8128; s.mode = .ready ∧ s.pc.toNat + 1 ≤ 0xFFF ∧ Illegal (wordAt s s.pc.toNat)) ∧
    { ready with mode := .awaitingKey 3 }.mode = .awaitingKey 3 := by
  unfold Illegal; decide

/-- The four clauses at `pc = 0xFFFE`, where the 16-bit wrap shows. -/
theorem witness_PcAfterEachInstruction :
    let s := { ready with pc := 0xFFFE }
    see (exec (.skipIfEqByte 0 0) s) (·.pc) = some 2 ∧ see (exec (.skipIfNotEqByte 0 0) s) (·.pc) = some 0 ∧
    see (exec (.ldkr 0) s) (·.pc) = some 0xFFFE ∧ see (exec .cls s) (·.pc) = some 0 := by decide

/-- Every kind of result occurs. -/
theorem witness_StepReturnsItsResult :
    faultOf (step (base 0x00EE)) = some .stackUnderflow ∧ stepResult (base 0x00EE) = .error .stackUnderflow ∧
    stepResult { ready with mode := .awaitingKey 3 } = .waiting ∧ stepResult (base 0xF30A) = .waiting ∧
    stepResult { ready with mode := .awaitingKey 3, key := some 0 } = .executed (.ldkr 3) ∧
    stepResult (base 0x6A0C) = .executed (.loadByte 10 0x0C) := by decide

/-- Each of the six does fail, the four with a memory access at the first address where they do. -/
theorem witness_OnlyTheseInstructionsFail :
    faultOf (exec (.call 0) { ready with sp := 16 }) = some .stackOverflow ∧
    faultOf (exec .ret ready) = some .stackUnderflow ∧
    faultOf (exec (.draw 0 0 1) { ready with I := 0x1000 }) = some (.addressOutOfRange 0x1000) ∧
    faultOf (exec (.storeBCD 0) { ready with I := 0xFFE }) = some (.addressOutOfRange 0x1000) ∧
    faultOf (exec (.storeRegs 15) { ready with I := 0xFF1 }) = some (.addressOutOfRange 0x1000) ∧
    faultOf (exec (.loadRegs 15) { ready with I := 0x1001 }) = some (.addressOutOfRange 0x1001) := by decide

theorem witness_SysIsANoOp : 0x0E1#12 ≠ 0x0E0#12 ∧ 0x0E1#12 ≠ 0x0EE#12 := by decide

/-- RET with 1 and 16 entries, and with none. -/
theorem witness_RetPopsIntoPc : 0 < { ready with sp := 1 }.sp.val ∧ 0 < { ready with sp := 16 }.sp.val ∧
    ready.sp.val = 0 := by decide

/-- A jump to itself, and one elsewhere. -/
theorem witness_JpSetsPc : (0x200#12).toNat = ready.pc.toNat ∧ (0x201#12).toNat ≠ ready.pc.toNat := by decide

/-- CALL with 0 and 15 entries, and with 16. -/
theorem witness_CallPushesAndJumps : ready.sp.val < 16 ∧ { ready with sp := 15 }.sp.val < 16 ∧
    { ready with sp := 16 }.sp.val = 16 := by decide

/-- Equal and unequal, for the byte and the register skips. -/
theorem witness_Skips : ready.getV 3 = 0 ∧ ready.getV 3 ≠ 1 ∧ ready.getV 1 = ready.getV 2 ∧
    (regs ready [(1, 1)]).getV 1 ≠ (regs ready [(1, 1)]).getV 2 := by decide

theorem witness_RegisterSkips : (1 : Fin 16) ≠ 0 ∧ (15 : Fin 16) ≠ 0 := by decide

theorem witness_RetReturnsAfterCall : ∃ t, exec (.call 0x300) { ready with sp := 15 } = .next t ∧
    { t with pc := 0x400 }.stack = t.stack ∧ { t with pc := 0x400 }.sp = t.sp := ⟨_, rfl, rfl, rfl⟩

/-- Destinations beside `VF`, with and without the flag's condition: a sum of 255 and of 256, equal and greater. -/
theorem witness_Flags : (14 : RegIdx) ≠ 15 ∧ ¬ (0xFE#8).toNat + (0x01#8).toNat > 255 ∧
    (0xFF#8).toNat + (0x01#8).toNat > 255 ∧ ¬ (7#8).toNat > (7#8).toNat ∧ (8#8).toNat > (7#8).toNat := by decide

/-- A register the shift of `V[1]` neither names nor flags. -/
theorem witness_ShiftsByOne : (2 : RegIdx) ≠ 1 ∧ (2 : RegIdx) ≠ 15 ∧ (1 : RegIdx) ≠ 15 := by decide

/-- StoreBCD ends at 0xFFF, and one address further. -/
theorem witness_StoreBcdDigits : { ready with I := 0xFFD }.base + 2 ≤ 0xFFF ∧
    0xFFF < { ready with I := 0xFFE }.base + 2 := by decide

/-- StoreRegs and LoadRegs of all 16 registers end at 0xFFF, and one address further. -/
theorem witness_RegsToMemory : { ready with I := 0xFF0 }.base + (15 : RegIdx).val ≤ 0xFFF ∧
    0xFFF < { ready with I := 0xFF1 }.base + (15 : RegIdx).val := by decide

theorem witness_LoadRegsUndoesStoreRegs : ∃ t, exec (.storeRegs 2) (regs { ready with I := 0x400 } [(1, 7)]) = .next t ∧
    (∀ a, (regs t [(1, 9)]).mem.read a = t.mem.read a) ∧ (regs t [(1, 9)]).I = 0x400 := ⟨_, rfl, fun _ => rfl, rfl⟩

theorem witness_StoredInstructionRuns : let s := regs { ready with I := 0xFFE } [(0, 0x6A), (1, 0x0C)]
    (1 : RegIdx) ≤ 1 ∧ s.mode = .ready ∧ (∃ t, exec (.storeRegs 1) s = .next t) ∧
    decodeWord (BitVec.ofNat 16 ((s.getV 0).toNat * 256 + (s.getV 1).toNat)) = .ok (.loadByte 10 0x0C) :=
  ⟨by decide, rfl, ⟨_, rfl⟩, by decide⟩

theorem witness_ClsClears : ∀ X Y, X < 64 → Y < 32 → fbGet fbClear X Y = false := fun X Y _ _ => fbGet_fbClear X Y

/-- No rows wherever `I` points; the last row at 0xFFF; one address further. -/
theorem witness_DrawXorsTheSprite : (0 : Fin 16).val = 0 ∧
    { ready with I := 0xFF1 }.base + (15 : Fin 16).val - 1 ≤ 0xFFF ∧
    (0 < (15 : Fin 16).val ∧ 0xFFF < { ready with I := 0xFF2 }.base + (15 : Fin 16).val - 1) := by decide

/-- A pixel inside the drawn sprite, one beside it, and a Draw that sets `VF` to 1 and one that sets it to 0. -/
theorem witness_Drawn : let s := poke { ready with I := 0x300 } 0x300 [0x80]
    Drawn s 0 1 1 0 0 ∧ ¬ Drawn s 0 1 1 1 0 ∧
    see (exec (.draw 0 1 1) s) (·.getV 15) = some 0 ∧
    see (exec (.draw 0 1 1) { s with fb := fbFlip fbClear 0 0 }) (·.getV 15) = some 1 := by
  unfold Drawn SpriteBit; decide

theorem witness_DrawTwiceRestores : (0 : RegIdx) ≠ 15 ∧ (1 : RegIdx) ≠ 15 ∧
    ∃ t, exec (.draw 0 1 1) (poke { ready with I := 0x300 } 0x300 [0x80]) = .next t :=
  ⟨by decide, by decide, ⟨_, rfl⟩⟩

/-- A match (the high nibble is not compared), another key, and no key. -/
theorem witness_KeySkips :
    (∃ k : Nibble, (some 5 : Option Nibble) = some k ∧ k.toNat = (0x15#8).toNat % 16) ∧
    (¬ ∃ k : Nibble, (some 4 : Option Nibble) = some k ∧ k.toNat = (0x15#8).toNat % 16) ∧
    (¬ ∃ k : Nibble, (none : Option Nibble) = some k ∧ k.toNat = (0x15#8).toNat % 16) := by decide

/-- A wait without a key and with one. -/
theorem witness_LdkrResumesWithAKey :
    (let s := { ready with mode := .awaitingKey 15 }; s.mode = .awaitingKey 15 ∧ s.key = none) ∧
    (let s := { ready with mode := .awaitingKey 15, key := some 0 }; s.mode = .awaitingKey 15 ∧ s.key = some 0) := by
  decide

theorem witness_WaitWithoutKeyLastsForever : { ready with mode := .awaitingKey 0 }.mode = .awaitingKey 0 ∧
    { ready with mode := .awaitingKey 0 }.key = none := by decide

/-- A jump to itself at the last even address. -/
theorem witness_JumpToSelfIdles : let s := placeWord { ready with pc := 0xFFE } 0x1FFE
    s.mode = .ready ∧ s.pc.toNat ≤ 0xFFE ∧ (0xFFE#12).toNat = s.pc.toNat ∧
      decodeWord (wordAt s s.pc.toNat) = .ok (.jp 0xFFE) := by decide

theorem witness_TicksCommuteWithOtherInstructions :
    (∀ x, Instr.cls ≠ .loadDelay x ∧ Instr.cls ≠ .setDelay x ∧ Instr.cls ≠ .setSound x) ∧
    { ready with mode := .awaitingKey 3, key := some 1, DT := 1 }.mode = .awaitingKey 3 := by decide

/-- Every clause has an instruction that does change the part. -/
theorem witness_WritersOfEachPart : let s := { ready with I := 0x300, sp := 1, fb := fbFlip fbClear 0 0 }
    see (exec (.loadIndex 1) s) (·.I) ≠ some s.I ∧ see (exec (.call 1) s) (·.stack) ≠ some s.stack ∧
    see (exec .ret s) (·.sp) ≠ some s.sp ∧ see (exec (.setDelay 1) (s.setV 1 9)) (·.DT) ≠ some s.DT ∧
    see (exec (.setSound 1) (s.setV 1 9)) (·.ST) ≠ some s.ST ∧
    see (exec (.storeBCD 1) (s.setV 1 9)) (·.mem.read 0x302) ≠ some (s.mem.read 0x302) ∧
    see (exec .cls s) (·.fb) ≠ some s.fb ∧ see (exec (.ldkr 1) s) (·.mode) ≠ some s.mode ∧
    see (exec (.random 1 0) s) (·.draws) ≠ some s.draws := by decide

/-- A destination that changes, and `VF` as a flag that changes. -/
theorem witness_RegistersChangeOnlyWhenWritten :
    see (exec (.loadRegs 1) { ready with I := 0 }) (·.getV 1) ≠ some (ready.getV 1) ∧
    see (exec (.addReg 1 2) (regs ready [(1, 0xFF), (2, 1)])) (·.getV 15) ≠ some (ready.getV 15) := by decide

theorem witness_UnreadPartsAreCarriedThrough : (∀ x, Instr.cls ≠ .setSound x) ∧
    (∀ x kk, Instr.cls ≠ .random x kk) := by constructor <;> intros <;> exact Instr.noConfusion

/-- A memory in canonical form that lists cells, and a Step from it. -/
theorem witness_StepKeepsMemoryCanonical : (base 0x6A0C).mem.wf ∧ (∃ t, step (base 0x6A0C) = .next t) :=
  ⟨by decide, ⟨_, rfl⟩⟩

theorem witness_ReachableMemoryIsCanonical :
    Sys2Proof.Safety.Reachable (runSchedule [.loadRom [0x6A, 0x0C], .step, .tickTimers] State.reset) :=
  ⟨defaultFontRom, 0, _, rfl⟩

/-- The largest `pc` a run can have, and one Step of the jump that gives it. -/
theorem witness_StepKeepsPcBounded : PcBounded { ready with pc := 0x10FE } ∧ PcBounded (regs (base 0xBFFF) [(0, 0xFF)]) ∧
    see (step (regs (base 0xBFFF) [(0, 0xFF)])) (·.pc) = some 0x10FE := by
  refine ⟨⟨by decide, by decide, ?_⟩, ⟨by decide, by decide, ?_⟩, by decide⟩ <;> intro x h <;> exact Mode.noConfusion h

/-- A Step and a LoadRom that end with an error. -/
theorem witness_AnErrorChangesNothing :
    (runHostOp .step (base 0x00EE)).1 = .stepped (.error .stackUnderflow) ∧
    (runHostOp (.loadRom []) ready).1 = .loadError .alreadyLoaded := by decide

/-- The three clauses, the last at the largest ROM. -/
theorem witness_LoadRomLoadsOrFails : ready.romLoaded = true ∧
    (State.reset.romLoaded = false ∧ 3584 < (List.replicate 3585 (0x12 : Byte)).length) ∧
    (List.replicate 3584 (0x12 : Byte)).length ≤ 3584 := by
  rw [List.length_replicate, List.length_replicate]; decide

theorem witness_StateAtProgramEntry : (List.replicate 3584 (0x12 : Byte)).length ≤ 3584 ∧
    ([] : List Byte).length ≤ 3584 := by rw [List.length_replicate]; decide

theorem witness_KeyPersistsThroughSteps : ∃ t, Sys2Proof.core.run 1 (setKey (some 7) (base 0x6A0C)) = .next t :=
  ⟨_, rfl⟩

end Sys2Proof.Tests
end

section
/-! SUPPORT. The frame of `exec`: which parts of the state each instruction can change, and that every other part is
carried over (spec/10_state.md R20 to R31, spec/20_memory.md R55). -/

namespace Sys2Proof.Claims

open Sys2Proof.Machine

/-! ### Composing frames -/

theorem SamePart.trans {s t u : State} {p : Part} (hst : SamePart s t p) (htu : SamePart t u p) : SamePart s u p := by
  cases p with
  | V | mem => exact fun a => (htu a).trans (hst a)
  | _ => exact Eq.trans htu hst

theorem SameBut.trans {c d : List Part} {s t u : State} (hst : SameBut c s t) (htu : SameBut d t u) :
    SameBut (c ++ d) s u := fun p hp =>
  SamePart.trans (hst p fun hc => hp (List.mem_append_left d hc)) (htu p fun hd => hp (List.mem_append_right c hd))

theorem sameBut_refl (s : State) : SameBut [] s s := by
  intro p _; cases p <;> simp [SamePart]

theorem sameBut_setPc (s : State) (w : Word) : SameBut [.pc] s (s.setPc w) := by
  intro p hp; cases p <;> simp_all [SamePart]

/-- An instruction that ends by setting `pc` adds `pc` to what was changed (R92). -/
theorem SameBut.setPc {c : List Part} {s t u : State} {w : Word} (hu : SameBut c s u)
    (h : Host.Outcome.next (u.setPc w) = (.next t : Result)) : SameBut (c ++ [.pc]) s t := by
  cases h
  exact hu.trans (sameBut_setPc u w)

/-- The same for the end of an instruction that is no transfer of control (R92). -/
theorem SameBut.done {c : List Part} {s t u : State} (hu : SameBut c s u) (h : u.done = .next t) :
    SameBut (c ++ [.pc]) s t := hu.setPc h

end Sys2Proof.Claims

namespace Sys2Proof.Machine

open Sys2Proof.Claims

/-! ### Frames of the state's updates -/

theorem sameBut_setV (s : State) (x : RegIdx) (v : Byte) : SameBut [.V] s (s.setV x v) := by
  intro p hp; cases p <;> simp_all [SamePart]

theorem sameBut_setVFlag (s : State) (x : RegIdx) (r f : Byte) : SameBut [.V] s (s.setVFlag x r f) := by
  intro p hp; cases p <;> simp_all [SamePart]

theorem sameBut_loadRegsUpTo (s : State) (x : RegIdx) (vs : List Byte) : SameBut [.V] s (s.loadRegsUpTo x vs) := by
  intro p hp; cases p <;> simp_all [SamePart]

theorem sameBut_setI (s : State) (w : Word) : SameBut [.I] s (s.setI w) := by
  intro p hp; cases p <;> simp_all [SamePart]

theorem sameBut_setDT (s : State) (v : Byte) : SameBut [.DT] s (s.setDT v) := by
  intro p hp; cases p <;> simp_all [SamePart]

theorem sameBut_setST (s : State) (v : Byte) : SameBut [.ST] s (s.setST v) := by
  intro p hp; cases p <;> simp_all [SamePart]

theorem sameBut_setMode (s : State) (m : Mode) : SameBut [.mode] s (s.setMode m) := by
  intro p hp; cases p <;> simp_all [SamePart]

theorem sameBut_nextDraw (s : State) : SameBut [.draws] s s.nextDraw := by
  intro p hp; cases p <;> simp_all [SamePart]

theorem sameBut_fb (s : State) (f : Framebuffer) : SameBut [.fb] s { s with fb := f } := by
  intro p hp; cases p <;> simp_all [SamePart, State.getV]

theorem memWrite_next {s t : State} {base : Nat} {vs : List Byte} (h : s.memWrite base vs = .ok t) :
    t = { s with mem := s.mem.writeList base vs } := by
  rw [memWrite_eq] at h
  split at h
  · exact (Except.ok.inj h).symm
  · cases h

theorem sameBut_memWrite {s t : State} {base : Nat} {vs : List Byte} (h : s.memWrite base vs = .ok t) :
    SameBut [.mem] s t := by
  obtain rfl := memWrite_next h
  intro p hp; cases p <;> simp_all [SamePart, State.getV]

theorem sameBut_push {s t : State} {v : Word} (h : s.push v = .ok t) : SameBut [.stack, .sp] s t := by
  rcases Nat.lt_or_ge s.sp.val 16 with hlt | hfull
  · rw [push_ok s v hlt] at h
    cases h
    intro p hp; cases p <;> simp_all [SamePart, State.getV]
  · rw [push_full s v (by omega)] at h
    cases h

theorem sameBut_pop {s t : State} {v : Word} (h : s.pop = .ok (v, t)) : SameBut [.sp] s t := by
  rcases Nat.eq_zero_or_pos s.sp.val with hempty | hpos
  · rw [pop_empty s hempty] at h
    cases h
  · rw [pop_ok s hpos] at h
    cases h
    intro p hp; cases p <;> simp_all [SamePart, State.getV]

/-! ### The parts each instruction can change -/

/-- The parts an instruction can change (R21 to R31; `pc` by R92, `draws` is the model's own, log 1). -/
def partsWritten : Instr → List Part
  | .cls => [.fb, .pc]
  | .ret => [.sp, .pc]
  | .call _ => [.stack, .sp, .pc]
  | .sys _ | .jp _ | .jumpPlusV0 _ => [.pc]
  | .skipIfEqByte _ _ | .skipIfNotEqByte _ _ | .skipIfEqReg _ _ | .skipIfNotEqReg _ _ => [.pc]
  | .skipIfKey _ | .skipIfNotKey _ => [.pc]
  | .loadByte _ _ | .addByte _ _ | .loadReg _ _ | .or _ _ | .and _ _ | .xor _ _ => [.V, .pc]
  | .addReg _ _ | .sub _ _ | .shr _ _ | .subn _ _ | .shl _ _ => [.V, .pc]
  | .loadDelay _ | .loadRegs _ => [.V, .pc]
  | .random _ _ => [.draws, .V, .pc]
  | .loadIndex _ | .addri _ | .ldsi _ => [.I, .pc]
  | .draw _ _ _ => [.fb, .V, .pc]
  | .ldkr _ => [.mode]
  | .setDelay _ => [.DT, .pc]
  | .setSound _ => [.ST, .pc]
  | .storeBCD _ | .storeRegs _ => [.mem, .pc]

/-- The frame of every instruction: an executed instruction leaves each part it does not write as it was. -/
theorem exec_sameBut {i : Instr} {s t : State} (h : exec i s = .next t) : SameBut (partsWritten i) s t := by
  cases i with
  | cls => exact (sameBut_fb s _).done h
  | ret =>
    obtain ⟨⟨v, u⟩, hpop, hnext⟩ := orRaise_next.mp h
    exact (sameBut_pop hpop).setPc hnext
  | call nnn =>
    obtain ⟨u, hpush, hnext⟩ := orRaise_next.mp h
    exact (sameBut_push hpush).setPc hnext
  | sys | jp | jumpPlusV0 | skipIfEqByte | skipIfNotEqByte | skipIfEqReg | skipIfNotEqReg | skipIfKey | skipIfNotKey =>
    exact (sameBut_refl s).setPc h
  | loadByte | addByte | loadReg | or | and | xor | loadDelay => exact (sameBut_setV s _ _).done h
  | addReg | sub | shr | subn | shl => exact (sameBut_setVFlag s _ _ _).done h
  | random x kk => exact ((sameBut_nextDraw s).trans (sameBut_setV _ x _)).done h
  | loadIndex | addri | ldsi => exact (sameBut_setI s _).done h
  | draw x y n =>
    obtain ⟨rows, _, hnext⟩ := orRaise_next.mp h
    exact ((sameBut_fb s _).trans (sameBut_setV _ vf _)).done hnext
  | ldkr x =>
    cases h
    exact sameBut_setMode s _
  | setDelay => exact (sameBut_setDT s _).done h
  | setSound => exact (sameBut_setST s _).done h
  | storeBCD | storeRegs =>
    obtain ⟨u, hwrite, hnext⟩ := orRaise_next.mp h
    exact (sameBut_memWrite hwrite).done hnext
  | loadRegs x =>
    obtain ⟨vs, _, hnext⟩ := orRaise_next.mp h
    exact (sameBut_loadRegsUpTo s x vs).done hnext

/-- A part that changed is one the instruction writes. -/
theorem mem_partsWritten_of_changed {i : Instr} {s t : State} (h : exec i s = .next t) {p : Part}
    (hp : ¬ SamePart s t p) : p ∈ partsWritten i :=
  by_contra fun hnot => hp (exec_sameBut h p hnot)

/-! ### The writers of each part -/

theorem I_mem_partsWritten {i : Instr} (h : .I ∈ partsWritten i) :
    (∃ nnn, i = .loadIndex nnn) ∨ (∃ x, i = .addri x ∨ i = .ldsi x) := by
  cases i <;> simp_all [partsWritten]

theorem stack_mem_partsWritten {i : Instr} (h : .stack ∈ partsWritten i) : ∃ nnn, i = .call nnn := by
  cases i <;> simp_all [partsWritten]

theorem sp_mem_partsWritten {i : Instr} (h : .sp ∈ partsWritten i) : i = .ret ∨ ∃ nnn, i = .call nnn := by
  cases i <;> simp_all [partsWritten]

theorem DT_mem_partsWritten {i : Instr} (h : .DT ∈ partsWritten i) : ∃ x, i = .setDelay x := by
  cases i <;> simp_all [partsWritten]

theorem ST_mem_partsWritten {i : Instr} (h : .ST ∈ partsWritten i) : ∃ x, i = .setSound x := by
  cases i <;> simp_all [partsWritten]

theorem mem_mem_partsWritten {i : Instr} (h : .mem ∈ partsWritten i) : ∃ x, i = .storeBCD x ∨ i = .storeRegs x := by
  cases i <;> simp_all [partsWritten]

theorem fb_mem_partsWritten {i : Instr} (h : .fb ∈ partsWritten i) : i = .cls ∨ ∃ x y n, i = .draw x y n := by
  cases i <;> simp_all [partsWritten]

theorem mode_mem_partsWritten {i : Instr} (h : .mode ∈ partsWritten i) : isLdkr i = true := by
  cases i <;> simp_all [partsWritten, isLdkr]

theorem draws_mem_partsWritten {i : Instr} (h : .draws ∈ partsWritten i) : ∃ x kk, i = .random x kk := by
  cases i <;> simp_all [partsWritten]

theorem key_notMem_partsWritten (i : Instr) : .key ∉ partsWritten i := by
  cases i <;> simp [partsWritten]

theorem romLoaded_notMem_partsWritten (i : Instr) : .romLoaded ∉ partsWritten i := by
  cases i <;> simp [partsWritten]

theorem font_notMem_partsWritten (i : Instr) : .font ∉ partsWritten i := by
  cases i <;> simp [partsWritten]

/-! ### The bytes of memory an instruction can change (R55) -/

theorem read_of_memWrite_done {s t : State} {base a : Nat} {vs : List Byte}
    (h : orRaise (s.memWrite base vs) State.done = .next t) (ha : a < base ∨ base + vs.length ≤ a) :
    t.mem.read a = s.mem.read a := by
  obtain ⟨u, hwrite, hnext⟩ := orRaise_next.mp h
  obtain rfl := memWrite_next hwrite
  cases hnext
  exact s.mem.read_writeList_outside base a vs ha

/-- Every byte outside the `dataBytes i` bytes at `I` is left alone. -/
theorem exec_read_outside {i : Instr} {s t : State} (h : exec i s = .next t) {a : Nat}
    (ha : a < s.base ∨ s.base + dataBytes i ≤ a) : t.mem.read a = s.mem.read a := by
  by_cases hmem : .mem ∈ partsWritten i
  · obtain ⟨x, rfl | rfl⟩ := mem_mem_partsWritten hmem
    · exact read_of_memWrite_done h ha
    · exact read_of_memWrite_done h (by rwa [State.regsUpTo_length])
  · exact exec_sameBut h .mem hmem a

/-! ### The registers an instruction can change (R21, R22) -/

theorem getV_of_done {s t : State} (h : s.done = .next t) (j : RegIdx) : t.getV j = s.getV j := by
  cases h
  exact s.getV_advance 2 j

theorem getV_of_setV_done {s t : State} {x j : RegIdx} {v : Byte} (h : (s.setV x v).done = .next t) (hj : j ≠ x) :
    t.getV j = s.getV j := (getV_of_done h j).trans (s.getV_setV_ne v hj)

theorem getV_of_setVFlag_done {s t : State} {x j : RegIdx} {r f : Byte} (h : (s.setVFlag x r f).done = .next t)
    (hj : j ≠ x) (hvf : j ≠ vf) : t.getV j = s.getV j := by
  rw [getV_of_done h, State.getV_setVFlag, if_neg hvf, if_neg hj]

/-- A register that is no destination of an instruction, nor `VF` where the instruction has a flag output, is left
alone. -/
theorem exec_getV {i : Instr} {s t : State} {j : RegIdx} (h : exec i s = .next t) (hd : writesReg i j = false)
    (hf : ¬ (j = 15 ∧ writesFlag i = true)) : t.getV j = s.getV j := by
  cases i with
  | loadByte | addByte | loadReg | or | and | xor | loadDelay =>
    exact getV_of_setV_done h (by simpa [writesReg] using hd)
  | random => exact getV_of_setV_done (s := s.nextDraw) h (by simpa [writesReg] using hd)
  | addReg | sub | shr | subn | shl =>
    exact getV_of_setVFlag_done h (by simpa [writesReg] using hd) fun hj => hf ⟨hj, rfl⟩
  | draw x y n =>
    obtain ⟨rows, _, hnext⟩ := orRaise_next.mp h
    exact getV_of_setV_done (s := { s with fb := (plotRows _ _ _ rows).1 }) hnext fun hj => hf ⟨hj, rfl⟩
  | loadRegs x =>
    obtain ⟨vs, _, hnext⟩ := orRaise_next.mp h
    have hj : ¬ j.val ≤ x.val := by simpa [writesReg] using hd
    rw [getV_of_done hnext, State.getV_loadRegsUpTo, if_neg hj]
  | _ => exact exec_sameBut h .V (by simp [partsWritten]) j

end Sys2Proof.Machine
end

section
/-! SUPPORT. What no instruction reads, or only a named few: `exec` commutes with a change of the timers, `rom_loaded`
and the count of draws (spec/10_state.md R26, R31; spec/40_cycle.md R94). -/

namespace Sys2Proof.Machine

open Sys2Proof.Claims

/-- A change of the four parts that at most a few instructions name: the two timers, `rom_loaded`, and the count of
draws. Setting one of them, and a tick of both timers, are of this form. -/
def State.mapUnread (dt st : Byte → Byte) (rl : Bool → Bool) (dr : Nat → Nat) (s : State) : State :=
  { s with DT := dt s.DT, ST := st s.ST, romLoaded := rl s.romLoaded, draws := dr s.draws }

/-- A checked operation commutes with a change of the state when the check and what follows it do. -/
theorem orRaise_map {α β : Type} {f : State → State} {g : α → β} {k : α → Result} {k' : β → Result}
    (r : Except Fault α) (hk : ∀ v, k' (g v) = mapNext f (k v)) :
    orRaise (r.map g) k' = mapNext f (orRaise r k) := by
  cases r with
  | ok v => exact hk v
  | error e => rfl

section
variable (dt st : Byte → Byte) (rl : Bool → Bool) (dr : Nat → Nat) (s : State)

theorem done_mapUnread : (s.mapUnread dt st rl dr).done = mapNext (State.mapUnread dt st rl dr) s.done := rfl

theorem loadRegsUpTo_mapUnread (x : RegIdx) (vs : List Byte) :
    (s.mapUnread dt st rl dr).loadRegsUpTo x vs = (s.loadRegsUpTo x vs).mapUnread dt st rl dr := by
  simp only [State.loadRegsUpTo, State.mapUnread]

/-- A read sees nothing of the change; written with `map` so that `orRaise_map` applies to it as to the writes. -/
theorem memRead_mapUnread (base count : Nat) :
    (s.mapUnread dt st rl dr).memRead base count = (s.memRead base count).map id := by
  rw [Except.map_id]; rfl

theorem memWrite_mapUnread (base : Nat) (vs : List Byte) :
    (s.mapUnread dt st rl dr).memWrite base vs = (s.memWrite base vs).map (State.mapUnread dt st rl dr) := by
  rw [memWrite_eq, memWrite_eq]
  split <;> rfl

theorem push_mapUnread (v : Word) :
    (s.mapUnread dt st rl dr).push v = (s.push v).map (State.mapUnread dt st rl dr) := by
  have hsp : (s.mapUnread dt st rl dr).sp.val = s.sp.val := rfl
  rcases Nat.lt_or_ge s.sp.val 16 with hlt | hfull
  · rw [push_ok s v hlt, push_ok _ v (hsp ▸ hlt)]; rfl
  · rw [push_full s v (by omega), push_full _ v (by omega)]; rfl

theorem pop_mapUnread :
    (s.mapUnread dt st rl dr).pop = s.pop.map (Prod.map id (State.mapUnread dt st rl dr)) := by
  have hsp : (s.mapUnread dt st rl dr).sp.val = s.sp.val := rfl
  rcases Nat.eq_zero_or_pos s.sp.val with hempty | hpos
  · rw [pop_empty s hempty, pop_empty _ (hsp.trans hempty)]; rfl
  · rw [pop_ok s hpos, pop_ok _ (hsp ▸ hpos)]; rfl

/-- `exec` commutes with the change, provided each part that is changed is not one the instruction names. -/
theorem exec_mapUnread (i : Instr) (hdt : ∀ x, i = .loadDelay x ∨ i = .setDelay x → dt = id)
    (hst : ∀ x, i = .setSound x → st = id) (hdr : ∀ x kk, i = .random x kk → dr = id) :
    exec i (s.mapUnread dt st rl dr) = mapNext (State.mapUnread dt st rl dr) (exec i s) := by
  cases i with
  | loadDelay x => cases hdt x (.inl rfl); rfl
  | setDelay x => cases hdt x (.inr rfl); rfl
  | setSound x => cases hst x rfl; rfl
  | random x kk => cases hdr x kk rfl; rfl
  | ret =>
    simp only [exec, execRet, pop_mapUnread]
    exact orRaise_map _ fun _ => rfl
  | call =>
    simp only [exec, execCall, push_mapUnread]
    exact orRaise_map _ fun _ => rfl
  | draw =>
    simp only [exec, execDraw, memRead_mapUnread]
    exact orRaise_map _ fun _ => rfl
  | loadRegs =>
    simp only [exec, execLoadRegs, memRead_mapUnread, loadRegsUpTo_mapUnread, done_mapUnread]
    exact orRaise_map _ fun _ => rfl
  | storeBCD =>
    simp only [exec, execStoreBCD, memWrite_mapUnread]
    exact orRaise_map _ fun _ => rfl
  | storeRegs =>
    simp only [exec, execStoreRegs, memWrite_mapUnread]
    exact orRaise_map _ fun _ => rfl
  | _ => rfl

end

end Sys2Proof.Machine
end

section
/-! The statements of spec/10_state.md: the writers of each part, the parts nothing reads, and Reset. -/

namespace Sys2Proof.Proofs

open Sys2Proof.Machine Sys2Proof.Claims

/-- Settles O47, from the frame `exec_sameBut` of every instruction: a part that changed is in its list of written
parts, and the list names the writers. -/
theorem writersOfEachPart : Obligations.WritersOfEachPart := by
  intro i s t h
  have hframe : SameBut (partsWritten i) s t := exec_sameBut h
  refine ⟨fun hI => ?_, fun hstack => ?_, fun hsp => ?_, fun hDT => ?_, fun hST => ?_, fun a ha => ?_, fun hfb => ?_,
    fun hmode => ?_, fun hdraws => ?_, ?_, ?_, ?_⟩
  · exact I_mem_partsWritten (mem_partsWritten_of_changed h hI)
  · exact stack_mem_partsWritten (mem_partsWritten_of_changed h hstack)
  · exact sp_mem_partsWritten (mem_partsWritten_of_changed h hsp)
  · exact DT_mem_partsWritten (mem_partsWritten_of_changed h hDT)
  · exact ST_mem_partsWritten (mem_partsWritten_of_changed h hST)
  · have hin : ¬ (a < s.base ∨ s.base + dataBytes i ≤ a) := fun hout => ha (exec_read_outside h hout)
    exact ⟨mem_mem_partsWritten (mem_partsWritten_of_changed h fun hsame : SamePart s t .mem => ha (hsame a)),
      by omega, by omega⟩
  · exact fb_mem_partsWritten (mem_partsWritten_of_changed h hfb)
  · exact mode_mem_partsWritten (mem_partsWritten_of_changed h hmode)
  · exact draws_mem_partsWritten (mem_partsWritten_of_changed h hdraws)
  · exact hframe .key (key_notMem_partsWritten i)
  · exact hframe .romLoaded (romLoaded_notMem_partsWritten i)
  · exact hframe .font (font_notMem_partsWritten i)

/-- Settles O48, the contrapositive of `exec_getV`: what is neither destination nor flag is left alone. -/
theorem registersChangeOnlyWhenWritten : Obligations.RegistersChangeOnlyWhenWritten := by
  intro i s t j h hchanged
  by_contra hnot
  obtain ⟨hd, hf⟩ := not_or.mp hnot
  exact hchanged (exec_getV h (Bool.eq_false_iff.mpr hd) hf)

/-- Settles O49: each change is an instance of `exec_mapUnread`; SetSound overwrites `ST`, so the value it had is not
seen in the result. -/
theorem unreadPartsAreCarriedThrough : Obligations.UnreadPartsAreCarriedThrough := by
  intro i s
  refine ⟨fun v hi => ?_, fun v x => rfl, fun b => ?_, fun k hi => ?_⟩
  · exact exec_mapUnread id (fun _ => v) id id s i (fun _ _ => rfl) (fun x hx => absurd hx (hi x)) fun _ _ _ => rfl
  · exact exec_mapUnread id id (fun _ => b) id s i (fun _ _ => rfl) (fun _ _ => rfl) fun _ _ _ => rfl
  · exact exec_mapUnread id id id (fun _ => k) s i (fun _ _ => rfl) (fun _ _ => rfl)
      fun x kk hx => absurd hx (hi x kk)

/-- Settles O50: `Memory.wf_reset`, and every bound is met by 0; no wait is on. -/
theorem resetMeetsTheInvariants : Obligations.ResetMeetsTheInvariants :=
  ⟨Memory.wf_reset, by decide, by decide, fun _ hwait => nomatch hwait⟩

/-- Settles O55: memory reads as its reset contents by `Memory.read_nil`, the frame is `fbClear`. -/
theorem resetValues : Obligations.ResetValues := by
  intro s
  have hV (i : RegIdx) : (hostReset s).getV i = 0 := Vector.getElem_replicate i.isLt
  have hstack (j : Fin 16) : (hostReset s).stack[j.val] = 0 := Vector.getElem_replicate j.isLt
  have hmem (a : Nat) : (hostReset s).mem.read a = if h : a < 80 then s.mem.font[a] else 0 :=
    Memory.read_nil s.mem.font a
  have hfb (X Y : Nat) : fbGet (hostReset s).fb X Y = false := fbGet_fbClear X Y
  exact ⟨hV, rfl, rfl, hstack, rfl, rfl, rfl, hmem, rfl, fun X Y _ _ => hfb X Y, rfl, rfl, rfl, rfl⟩

end Sys2Proof.Proofs
end

section
/-! SUPPORT. What a Step does to memory as data, not byte by byte: only the two stores touch the list of cells
(spec/20_memory.md R55, R56); and the fetch of a word that lies in memory (R53, R60; spec/40_cycle.md R91). -/

namespace Sys2Proof.Machine

open Sys2Proof.Claims

/-! ### Memory carried over as it is -/

theorem mem_of_setPc {s t : State} {w : Word} (h : Host.Outcome.next (s.setPc w) = (.next t : Result)) :
    t.mem = s.mem := by
  cases h
  exact s.setPc_mem w

theorem mem_of_done {s t : State} (h : s.done = .next t) : t.mem = s.mem := mem_of_setPc h

theorem mem_of_push {s t : State} {v : Word} (h : s.push v = .ok t) : t.mem = s.mem := by
  rcases Nat.lt_or_ge s.sp.val 16 with hlt | hfull
  · rw [push_ok s v hlt] at h
    cases h; rfl
  · rw [push_full s v (by omega)] at h
    cases h

theorem mem_of_pop {s t : State} {v : Word} (h : s.pop = .ok (v, t)) : t.mem = s.mem := by
  rcases Nat.eq_zero_or_pos s.sp.val with hempty | hpos
  · rw [pop_empty s hempty] at h
    cases h
  · rw [pop_ok s hpos] at h
    cases h; rfl

theorem mem_of_resumeLdkr {s t : State} {x : RegIdx} (h : resumeLdkr x s = .next t) : t.mem = s.mem := by
  unfold resumeLdkr at h
  split at h
  · cases h; rfl
  · cases h; rfl

/-- An instruction that is no store leaves memory the same data, which is more than `exec_sameBut` says of its
bytes. -/
theorem mem_of_exec {i : Instr} {s t : State} (h : exec i s = .next t) (hi : .mem ∉ partsWritten i) :
    t.mem = s.mem := by
  cases i with
  | storeBCD | storeRegs => exact absurd (by simp [partsWritten]) hi
  | ret =>
    obtain ⟨⟨v, u⟩, hpop, hnext⟩ := orRaise_next.mp h
    exact (mem_of_setPc hnext).trans (mem_of_pop hpop)
  | call =>
    obtain ⟨u, hpush, hnext⟩ := orRaise_next.mp h
    exact (mem_of_setPc hnext).trans (mem_of_push hpush)
  | draw | loadRegs =>
    obtain ⟨vs, _, hnext⟩ := orRaise_next.mp h
    cases hnext; rfl
  | _ =>
    cases h; rfl

/-! ### The canonical form -/

theorem wf_of_memWrite_done {s t : State} {base : Nat} {vs : List Byte} (hs : s.mem.wf)
    (h : orRaise (s.memWrite base vs) State.done = .next t) : t.mem.wf := by
  obtain ⟨u, hwrite, hnext⟩ := orRaise_next.mp h
  rw [mem_of_done hnext]
  exact memWrite_wf hs hwrite

/-- Every instruction keeps the canonical form: the stores by `wf_of_memWrite_done`, the others because memory is the same
data. -/
theorem exec_wf {i : Instr} {s t : State} (hs : s.mem.wf) (h : exec i s = .next t) : t.mem.wf := by
  by_cases hmem : .mem ∈ partsWritten i
  · obtain ⟨x, rfl | rfl⟩ := mem_mem_partsWritten hmem
    · exact wf_of_memWrite_done hs h
    · exact wf_of_memWrite_done hs h
  · rw [mem_of_exec h hmem]
    exact hs

/-! ### Fetching a word that lies in memory -/

theorem wordAt_eq (s : State) (a : Nat) : wordAt s a = wordOfBytes (s.mem.read a) (s.mem.read (a + 1)) := by
  apply BitVec.eq_of_toNat_eq
  rw [wordAt, BitVec.toNat_ofNat, ← wordOfBytes_toNat, Nat.mod_eq_of_lt (BitVec.isLt _)]

/-- In mode Ready, with both bytes at `pc` in memory, a Step is the execution of what the word at `pc` decodes to. -/
theorem step_of_decode_wordAt {s : State} {i : Instr} (hready : s.mode = .ready) (hpc : s.pc.toNat + 1 ≤ 0xFFF)
    (hdecode : decodeWord (wordAt s s.pc.toNat) = .ok i) : step s = exec i s := by
  have hword : s.fetchWord = .ok (wordAt s s.pc.toNat) := by rw [fetchWord_eq, if_pos hpc, wordAt_eq]
  have hinstr : s.fetchInstr = .ok i := by simp only [State.fetchInstr, hword, decodeFetched, hdecode]
  simp only [step, cycle, hready, hinstr, orRaise_ok]

/-! ### What StoreRegs stores (R155) -/

/-- A StoreRegs that goes on had its whole range in memory, and all it did is the write and the advance. -/
theorem storeRegs_next {x : RegIdx} {s t : State} (h : exec (.storeRegs x) s = .next t) :
    s.base + x.val ≤ 0xFFF ∧ t = { s with mem := s.mem.writeList s.base (s.regsUpTo x) }.advance 2 := by
  obtain ⟨u, hwrite, hnext⟩ := orRaise_next.mp h
  rw [memWrite_eq, State.regsUpTo_length] at hwrite
  split at hwrite
  · next hrange =>
    cases hwrite
    cases hnext
    exact ⟨by omega, rfl⟩
  · cases hwrite

theorem read_of_storeRegs {x j : RegIdx} {s t : State} (h : exec (.storeRegs x) s = .next t) (hj : j ≤ x) :
    t.mem.read (s.base + j.val) = s.getV j := by
  obtain ⟨_, rfl⟩ := storeRegs_next h
  rw [State.advance_mem, Memory.read_writeList, if_pos (Nat.le_add_right ..), Nat.add_sub_cancel_left,
    State.regsUpTo_get s x j hj, Option.getD_some]

end Sys2Proof.Machine
end

section
/-! The statements of spec/20_memory.md: the canonical form of memory, and stores seen by the fetch. -/

namespace Sys2Proof.Proofs

open Sys2Proof.Machine Sys2Proof.Claims

/-- Settles O51: a Step that resumes or keeps waiting in LDKR leaves memory as it is, and one that executes an
instruction keeps the canonical form by `exec_wf`. -/
theorem stepKeepsMemoryCanonical : Obligations.StepKeepsMemoryCanonical := by
  intro s t hs h
  obtain ⟨x, _, hresume⟩ | ⟨i, _, _, hexec⟩ := step_next h
  · rw [mem_of_resumeLdkr hresume]
    exact hs
  · exact exec_wf hs hexec

/-- Settles O35: after the store the word at `I` is that of `V[0]` and `V[1]` by `read_of_storeRegs`, and it lies in
memory because the store's range did. -/
theorem storedInstructionRuns : Obligations.StoredInstructionRuns := by
  intro x s t i hx hready h hdecode
  obtain ⟨hrange, ht⟩ := storeRegs_next h
  have hx1 : 1 ≤ x.val := hx
  have hmode : t.mode = .ready := by rw [ht]; exact hready
  have hpc : s.I.toNat + 1 ≤ 0xFFF := by
    unfold State.base at hrange
    omega
  have hhi : t.mem.read s.I.toNat = s.getV 0 := read_of_storeRegs h (Fin.zero_le x)
  have hlo : t.mem.read (s.I.toNat + 1) = s.getV 1 := read_of_storeRegs h hx
  refine step_of_decode_wordAt hmode hpc ?_
  rw [wordAt, hhi, hlo]
  exact hdecode

end Sys2Proof.Proofs
end

section
/-! SUPPORT. What the decoder answers, said once (spec/30_encoding.md R74, R76, R79): the word of an instruction decodes
to it, a decoded instruction encodes to its word, and a rejected word is illegal. -/

namespace Sys2Proof

open Sys2Proof.Claims

/-! ### Decoding the word of an instruction (R79) -/

theorem layoutA_eq_iff {op : Nibble} {nnn nnn' : Addr12} : layoutA op nnn = layoutA op nnn' ↔ nnn = nnn' :=
  ⟨fun h => by rw [← fieldNNN_layoutA op nnn, h, fieldNNN_layoutA], congrArg _⟩

theorem sys_wf_iff {nnn : Addr12} : (Instr.sys nnn).wf = true ↔ nnn ≠ 0x0E0#12 ∧ nnn ≠ 0x0EE#12 := by
  simp [Instr.wf]

/-- The only words of group 0 that are no SYS are `00E0` and `00EE` (R74). -/
theorem decodeWord_sys {nnn : Addr12} (hcls : nnn ≠ 0x0E0#12) (hret : nnn ≠ 0x0EE#12) :
    decodeWord (layoutA 0x0#4 nnn) = .ok (.sys nnn) := by
  have hE0 : layoutA 0x0#4 nnn ≠ 0x00E0#16 := fun h => hcls (layoutA_eq_iff.mp h)
  have hEE : layoutA 0x0#4 nnn ≠ 0x00EE#16 := fun h => hret (layoutA_eq_iff.mp h)
  simp [decodeWord, hE0, hEE]

theorem decodeWord_encode {i : Instr} (h : i.wf = true) : decodeWord (encode i) = .ok i := by
  cases i with
  | cls | ret => rfl
  | sys nnn =>
    obtain ⟨hcls, hret⟩ := sys_wf_iff.mp h
    exact decodeWord_sys hcls hret
  | loadReg | or | and | xor | addReg | sub | shr | subn | shl => simp [encode, decodeWord, decodeAlu]
  | skipIfKey | skipIfNotKey => simp [encode, decodeWord, decodeKeySkip]
  | loadDelay | ldkr | setDelay | setSound | addri | ldsi | storeBCD | storeRegs | loadRegs =>
    simp [encode, decodeWord, decodeFx]
  | _ => simp [encode, decodeWord]

/-! ### The illegal words by their fields (R71, R76) -/

theorem illegal_iff_fields (w : Word) : Illegal w ↔
    (fieldN0 w = 0x5#4 ∧ fieldN3 w ≠ 0x0#4) ∨
    (fieldN0 w = 0x8#4 ∧ fieldN3 w ∉ [0x0#4, 0x1#4, 0x2#4, 0x3#4, 0x4#4, 0x5#4, 0x6#4, 0x7#4, 0xE#4]) ∨
    (fieldN0 w = 0x9#4 ∧ fieldN3 w ≠ 0x0#4) ∨
    (fieldN0 w = 0xE#4 ∧ fieldKK w ∉ [0x9E#8, 0xA1#8]) ∨
    (fieldN0 w = 0xF#4 ∧
      fieldKK w ∉ [0x07#8, 0x0A#8, 0x15#8, 0x18#8, 0x1E#8, 0x29#8, 0x33#8, 0x55#8, 0x65#8]) := by
  simp only [Illegal, ← BitVec.toNat_inj, ne_eq, List.mem_cons, List.not_mem_nil, or_false, fieldN0_toNat,
    fieldN3_toNat, fieldKK_toNat, BitVec.toNat_ofNat]
  omega

/-- No instruction, well-formed or not, encodes to an illegal word: its layout fixes `n0` and the selector. -/
theorem not_illegal_encode (i : Instr) : ¬ Illegal (encode i) := by
  rw [illegal_iff_fields]
  cases i with
  | cls | ret => decide
  | _ => simp [encode]

/-! ### What the decoder can answer (R74) -/

/-- The answer is right for the word: a well-formed instruction whose word it is, or the rejection of an illegal word
by name. -/
def DecodeRight (w : Word) : Except DecodeReject Instr → Prop
  | .ok i => encode i = w ∧ i.wf = true
  | .error e => e = .noPattern w ∧ Illegal w

theorem DecodeRight.ite {w : Word} {c : Prop} [Decidable c] {a b : Except DecodeReject Instr}
    (ha : c → DecodeRight w a) (hb : ¬ c → DecodeRight w b) : DecodeRight w (if c then a else b) := by
  split
  · next h => exact ha h
  · next h => exact hb h

section
variable {w : Word} {op : Nibble} {i : Instr}

/-- An instruction of format `A` (R72) with the opcode and address of the word. -/
theorem DecodeRight.addr (hop : fieldN0 w = op) (henc : encode i = layoutA op (fieldNNN w))
    (hwf : i.wf = true) : DecodeRight w (.ok i) :=
  ⟨by rw [henc, ← hop, layoutA_fields], hwf⟩

/-- An instruction of format `XK` or `X` (R72) with the opcode, register and byte of the word. -/
theorem DecodeRight.regByte {kk : Byte} (hop : fieldN0 w = op) (hkk : fieldKK w = kk)
    (henc : encode i = layoutXK op (ofNibble (fieldN1 w)) kk) (hwf : i.wf = true) : DecodeRight w (.ok i) :=
  ⟨by rw [henc, ← hop, ← hkk, layoutXK_fields], hwf⟩

/-- An instruction of format `XY` or `XYN` (R72) with the opcode, registers and nibble of the word. -/
theorem DecodeRight.regReg {n : Nibble} (hop : fieldN0 w = op) (hn : fieldN3 w = n)
    (henc : encode i = layoutXY op (ofNibble (fieldN1 w)) (ofNibble (fieldN2 w)) n) (hwf : i.wf = true) :
    DecodeRight w (.ok i) :=
  ⟨by rw [henc, ← hop, ← hn, layoutXY_fields], hwf⟩

end

theorem decodeAlu_right {w : Word} (hop : fieldN0 w = 0x8#4) :
    DecodeRight w (decodeAlu w (ofNibble (fieldN1 w)) (ofNibble (fieldN2 w)) (fieldN3 w)) := by
  unfold decodeAlu
  iterate 9 refine .ite (fun hn => .regReg hop hn rfl rfl) fun _ => ?_
  exact ⟨rfl, (illegal_iff_fields w).mpr (by simp_all)⟩

theorem decodeKeySkip_right {w : Word} (hop : fieldN0 w = 0xE#4) :
    DecodeRight w (decodeKeySkip w (ofNibble (fieldN1 w)) (fieldKK w)) := by
  unfold decodeKeySkip
  iterate 2 refine .ite (fun hkk => .regByte hop hkk rfl rfl) fun _ => ?_
  exact ⟨rfl, (illegal_iff_fields w).mpr (by simp_all)⟩

theorem decodeFx_right {w : Word} (hop : fieldN0 w = 0xF#4) :
    DecodeRight w (decodeFx w (ofNibble (fieldN1 w)) (fieldKK w)) := by
  unfold decodeFx
  iterate 9 refine .ite (fun hkk => .regByte hop hkk rfl rfl) fun _ => ?_
  exact ⟨rfl, (illegal_iff_fields w).mpr (by simp_all)⟩

/-- A word of group 0 other than `00E0` and `00EE` is that of a well-formed SYS (R74, R111). -/
theorem sys_right {w : Word} (hop : fieldN0 w = 0x0#4) (hcls : w ≠ 0x00E0#16) (hret : w ≠ 0x00EE#16) :
    DecodeRight w (.ok (.sys (fieldNNN w))) := by
  refine .addr hop rfl ?_
  have hw : layoutA 0x0#4 (fieldNNN w) = w := hop ▸ layoutA_fields w
  have hE0 : fieldNNN w ≠ 0x0E0#12 := fun h => hcls (by rw [← hw, h]; rfl)
  have hEE : fieldNNN w ≠ 0x0EE#12 := fun h => hret (by rw [← hw, h]; rfl)
  exact sys_wf_iff.mpr ⟨hE0, hEE⟩

/-- The groups 5 and 9 have one instruction, at `n = 0` (R74, R76). -/
theorem regReg_or_reject_right {w : Word} {op : Nibble} {i : Instr} (hop : fieldN0 w = op)
    (hmem : op = 0x5#4 ∨ op = 0x9#4)
    (henc : encode i = layoutXY op (ofNibble (fieldN1 w)) (ofNibble (fieldN2 w)) 0x0#4) (hwf : i.wf = true) :
    DecodeRight w (if fieldN3 w = 0x0#4 then .ok i else .error (.noPattern w)) :=
  .ite (fun hn => .regReg hop hn henc hwf) fun hn =>
    ⟨rfl, (illegal_iff_fields w).mpr (by rcases hmem with rfl | rfl <;> simp [hop, hn])⟩

theorem eq_F_of_notMem : ∀ v : Nibble, v ∉ [0x0#4, 0x1#4, 0x2#4, 0x3#4, 0x4#4, 0x5#4, 0x6#4, 0x7#4, 0x8#4, 0x9#4,
    0xA#4, 0xB#4, 0xC#4, 0xD#4, 0xE#4] → v = 0xF#4 := by decide

/-- The decoder's answer is right for every word; the proof goes through R74's dispatch on `n0` in its order. -/
theorem decodeWord_right (w : Word) : DecodeRight w (decodeWord w) := by
  unfold decodeWord
  refine .ite (fun h0 => ?group0) fun n0 => .ite (fun h1 => .addr h1 rfl rfl) fun n1 =>
    .ite (fun h2 => .addr h2 rfl rfl) fun n2 => .ite (fun h3 => .regByte h3 rfl rfl rfl) fun n3 =>
    .ite (fun h4 => .regByte h4 rfl rfl rfl) fun n4 =>
    .ite (fun h5 => regReg_or_reject_right h5 (.inl rfl) rfl rfl) fun n5 =>
    .ite (fun h6 => .regByte h6 rfl rfl rfl) fun n6 => .ite (fun h7 => .regByte h7 rfl rfl rfl) fun n7 =>
    .ite (fun h8 => decodeAlu_right h8) fun n8 =>
    .ite (fun h9 => regReg_or_reject_right h9 (.inr rfl) rfl rfl) fun n9 =>
    .ite (fun hA => .addr hA rfl rfl) fun nA => .ite (fun hB => .addr hB rfl rfl) fun nB =>
    .ite (fun hC => .regByte hC rfl rfl rfl) fun nC =>
    .ite (fun hD => .regReg hD (toNibble_ofNibble _).symm rfl rfl) fun nD =>
    .ite (fun hE => decodeKeySkip_right hE) fun nE => decodeFx_right ?groupF
  case group0 =>
    exact .ite (fun hcls => ⟨hcls.symm, rfl⟩) fun hcls => .ite (fun hret => ⟨hret.symm, rfl⟩) (sys_right h0 hcls)
  case groupF => exact eq_F_of_notMem _ (by simp [n0, n1, n2, n3, n4, n5, n6, n7, n8, n9, nA, nB, nC, nD, nE])

theorem encode_of_decodeWord {w : Word} {i : Instr} (h : decodeWord w = .ok i) : encode i = w ∧ i.wf = true := by
  have hright := decodeWord_right w
  rwa [h] at hright

theorem illegal_of_decodeWord {w : Word} {e : DecodeReject} (h : decodeWord w = .error e) :
    e = .noPattern w ∧ Illegal w := by
  have hright := decodeWord_right w
  rwa [h] at hright

theorem decodeWord_error_iff (w : Word) : decodeWord w = .error (.noPattern w) ↔ Illegal w := by
  refine ⟨fun h => (illegal_of_decodeWord h).2, fun hill => ?_⟩
  cases hdec : decodeWord w with
  | ok i => exact absurd ((encode_of_decodeWord hdec).1 ▸ hill) (not_illegal_encode i)
  | error e => rw [(illegal_of_decodeWord hdec).1]

end Sys2Proof
end

section
/-! SUPPORT. The opcode table (R75, opcode_table.json): a word fits at most one row, and an illegal word fits none. -/

namespace Sys2Proof.Laws.TableRow

open Sys2Proof.Claims

/-- Every instruction has its row, by the lemma of its constructor. -/
theorem exists_row_fits : ∀ i : Instr, Statement i
  | .cls => cls | .ret => ret | .sys nnn => sys nnn | .jp nnn => jp nnn | .call nnn => call nnn
  | .skipIfEqByte x kk => skipIfEqByte x kk | .skipIfNotEqByte x kk => skipIfNotEqByte x kk
  | .skipIfEqReg x y => skipIfEqReg x y | .loadByte x kk => loadByte x kk | .addByte x kk => addByte x kk
  | .loadReg x y => loadReg x y | .or x y => or x y | .and x y => and x y | .xor x y => xor x y
  | .addReg x y => addReg x y | .sub x y => sub x y | .shr x y => shr x y | .subn x y => subn x y
  | .shl x y => shl x y | .skipIfNotEqReg x y => skipIfNotEqReg x y | .loadIndex nnn => loadIndex nnn
  | .jumpPlusV0 nnn => jumpPlusV0 nnn | .random x kk => random x kk | .draw x y n => draw x y n
  | .skipIfKey x => skipIfKey x | .skipIfNotKey x => skipIfNotKey x | .loadDelay x => loadDelay x
  | .ldkr x => ldkr x | .setDelay x => setDelay x | .setSound x => setSound x | .addri x => addri x
  | .ldsi x => ldsi x | .storeBCD x => storeBCD x | .storeRegs x => storeRegs x | .loadRegs x => loadRegs x

theorem fits_iff {r : OpcodeRow} {w : Word} : r.fits w = true ↔ w &&& r.mask = r.pattern ∧ w ∉ r.exclude := by
  simp [OpcodeRow.fits]

/-! ### No word fits two rows -/

/-- Two rows ask for different bits where both have a mask, or the first is one word that the second excludes. -/
def Apart (r r' : OpcodeRow) : Prop :=
  r.pattern &&& r'.mask ≠ r'.pattern &&& r.mask ∨ (r.mask = 0xFFFF#16 ∧ r.pattern ∈ r'.exclude)

theorem not_fits_of_apart {r r' : OpcodeRow} {w : Word} (h : Apart r r') (hr : r.fits w = true) :
    ¬ r'.fits w = true := by
  intro hr'
  obtain ⟨hpat, _⟩ := fits_iff.mp hr
  obtain ⟨hpat', hexcl⟩ := fits_iff.mp hr'
  rcases h with hne | ⟨hmask, hmem⟩
  · exact hne (by rw [← hpat, ← hpat']; ac_rfl)
  · have hw : w = r.pattern := by rw [← hpat, hmask]; exact BitVec.and_allOnes.symm
    exact hexcl (hw ▸ hmem)

theorem opcodeRows_apart : opcodeRows.Pairwise Apart := by
  unfold Apart
  decide

/-- Of rows that are pairwise apart, the ones a word fits are the one it is known to fit. -/
theorem filter_fits_eq_singleton {rows : List OpcodeRow} {r : OpcodeRow} {w : Word} (hrows : rows.Pairwise Apart)
    (hmem : r ∈ rows) (hr : r.fits w = true) : rows.filter (·.fits w) = [r] := by
  induction rows with
  | nil => cases hmem
  | cons a rows ih =>
    obtain ⟨ha, hrest⟩ := List.pairwise_cons.mp hrows
    rcases List.mem_cons.mp hmem with rfl | htail
    · have hnone : rows.filter (·.fits w) = [] :=
        List.filter_eq_nil_iff.mpr fun r' hr' => not_fits_of_apart (ha r' hr') hr
      rw [List.filter_cons_of_pos (by exact hr), hnone]
    · have hfit : ¬ a.fits w = true := fun h => not_fits_of_apart (ha r htail) h hr
      rw [List.filter_cons_of_neg (by exact hfit), ih hrest htail]

theorem tableMnemonics_encode {i : Instr} (h : i.wf = true) : tableMnemonics (encode i) = [i.mnemonic] := by
  obtain ⟨r, hmem, hname, hfits⟩ := exists_row_fits i h
  rw [tableMnemonics, filter_fits_eq_singleton opcodeRows_apart hmem hfits, List.map_singleton, hname]

/-! ### An illegal word fits no row -/

theorem fieldN0_and (w m : Word) : fieldN0 (w &&& m) = fieldN0 w &&& fieldN0 m := BitVec.extractLsb'_and

theorem fieldN3_and (w m : Word) : fieldN3 (w &&& m) = fieldN3 w &&& fieldN3 m := BitVec.extractLsb'_and

theorem fieldKK_and (w m : Word) : fieldKK (w &&& m) = fieldKK w &&& fieldKK m := BitVec.extractLsb'_and

/-- Every row fixes `n0`, a row of the groups 5, 8 and 9 also `n`, one of the groups E and F also `kk`; and no row's
pattern is illegal. -/
theorem opcodeRows_selectors : ∀ r ∈ opcodeRows, fieldN0 r.mask = 0xF#4 ∧
    (fieldN0 r.pattern ∈ [0x5#4, 0x8#4, 0x9#4] → fieldN3 r.mask = 0xF#4) ∧
    (fieldN0 r.pattern ∈ [0xE#4, 0xF#4] → fieldKK r.mask = 0xFF#8) ∧ ¬ Illegal r.pattern := by
  simp only [illegal_iff_fields]
  decide

/-- A word shares with a row it fits the selectors that make a word illegal, so the row's pattern would be illegal
too. -/
theorem not_fits_of_illegal {r : OpcodeRow} {w : Word} (hmem : r ∈ opcodeRows) (hw : Illegal w) :
    ¬ r.fits w = true := by
  intro hfits
  obtain ⟨hpat, _⟩ := fits_iff.mp hfits
  obtain ⟨hmask0, hmask3, hmaskKK, hlegal⟩ := opcodeRows_selectors r hmem
  have h0 : fieldN0 r.pattern = fieldN0 w := by rw [← hpat, fieldN0_and, hmask0, nibble_and_F]
  rw [h0] at hmask3 hmaskKK
  have h3 (h : fieldN0 w ∈ [0x5#4, 0x8#4, 0x9#4]) : fieldN3 r.pattern = fieldN3 w := by
    rw [← hpat, fieldN3_and, hmask3 h, nibble_and_F]
  have hKK (h : fieldN0 w ∈ [0xE#4, 0xF#4]) : fieldKK r.pattern = fieldKK w := by
    rw [← hpat, fieldKK_and, hmaskKK h, byte_and_FF]
  refine hlegal ?_
  rw [illegal_iff_fields] at hw ⊢
  rw [h0]
  rcases hw with hw | hw | hw | hw | hw
  · rw [h3 (by simp [hw])]; exact .inl hw
  · rw [h3 (by simp [hw])]; exact .inr (.inl hw)
  · rw [h3 (by simp [hw])]; exact .inr (.inr (.inl hw))
  · rw [hKK (by simp [hw])]; exact .inr (.inr (.inr (.inl hw)))
  · rw [hKK (by simp [hw])]; exact .inr (.inr (.inr (.inr hw)))

theorem tableMnemonics_of_illegal {w : Word} (hw : Illegal w) : tableMnemonics w = [] := by
  rw [tableMnemonics, List.filter_eq_nil_iff.mpr fun r hmem => not_fits_of_illegal hmem hw, List.map_nil]

end Sys2Proof.Laws.TableRow
end

section
/-! SUPPORT. The number of each pattern of R74, from the layouts of R72. -/

namespace Sys2Proof.Claims

theorem isWordOf_of_encode {n : Nat} {i : Instr} (hwf : i.wf = true) (hn : (encode i).toNat = n) : IsWordOf n i := by
  rw [IsWordOf, ← hn, BitVec.ofNat_toNat, BitVec.setWidth_eq, decodeWord_encode hwf]

section
variable {n : Nat} {op : Nibble} {i : Instr}

theorem isWordOf_addr {nnn : Addr12} (hwf : i.wf = true) (henc : encode i = layoutA op nnn)
    (hn : n = op.toNat * 4096 + nnn.toNat) : IsWordOf n i :=
  isWordOf_of_encode hwf (by rw [henc, layoutA_toNat, hn])

theorem isWordOf_regByte {x : RegIdx} {kk : Byte} (hwf : i.wf = true) (henc : encode i = layoutXK op x kk)
    (hn : n = op.toNat * 4096 + x.val * 256 + kk.toNat) : IsWordOf n i :=
  isWordOf_of_encode hwf (by rw [henc, layoutXK_toNat, hn])

theorem isWordOf_regReg {x y : RegIdx} {v : Nibble} (hwf : i.wf = true) (henc : encode i = layoutXY op x y v)
    (hn : n = op.toNat * 4096 + x.val * 256 + y.val * 16 + v.toNat) : IsWordOf n i :=
  isWordOf_of_encode hwf (by rw [henc, layoutXY_toNat, hn])

end

end Sys2Proof.Claims
end

section
/-! The statements of spec/30_encoding.md: the round trips, the opcode table, and R74's dispatch. -/

namespace Sys2Proof.Proofs

open Sys2Proof.Machine Sys2Proof.Claims Sys2Proof.Laws

/-- Settles O1, by `decodeWord_encode`: each field of a layout is read back. -/
theorem decodeOfEncode : Obligations.DecodeOfEncode := fun _ => decodeWord_encode

/-- Settles O2, by `decodeWord_right`: each branch of the dispatch keeps every field of the word. -/
theorem encodeOfDecode : Obligations.EncodeOfDecode := fun _ _ => encode_of_decodeWord

/-- Settles O3: a decoded word is the word of its instruction, whose row is the only one it fits; a rejected word is
illegal and fits none. -/
theorem decoderAgreesWithOpcodeTable : Obligations.DecoderAgreesWithOpcodeTable := by
  intro w
  cases hdec : decodeWord w with
  | ok i =>
    obtain ⟨rfl, hwf⟩ := encode_of_decodeWord hdec
    exact TableRow.tableMnemonics_encode hwf
  | error e => exact TableRow.tableMnemonics_of_illegal (illegal_of_decodeWord hdec).2

/-- Settles O4: every pattern is the number of its instruction's word, and the rejected words are the illegal ones by
`decodeWord_error_iff`. -/
theorem decoderIsTheDispatch : Obligations.DecoderIsTheDispatch := by
  refine ⟨rfl, rfl, fun nnn hcls hret => ?_, fun nnn => ?_, fun x kk => ?_, fun x y => ?_, fun x => ?_,
    decodeWord_error_iff, fun w => ?_⟩
  · exact isWordOf_addr (sys_wf_iff.mpr ⟨hcls, hret⟩) rfl (Nat.zero_add _).symm
  · exact ⟨isWordOf_addr rfl rfl rfl, isWordOf_addr rfl rfl rfl, isWordOf_addr rfl rfl rfl, isWordOf_addr rfl rfl rfl⟩
  · refine ⟨?_, ?_, ?_, ?_, ?_⟩ <;> exact isWordOf_regByte rfl rfl (by simp only [BitVec.toNat_ofNat]; omega)
  · iterate 11 refine ⟨isWordOf_regReg rfl rfl (by simp only [BitVec.toNat_ofNat]; omega), ?_⟩
    exact fun n => isWordOf_regReg rfl rfl (by simp only [BitVec.toNat_ofNat, toNibble_toNat]; omega)
  · refine ⟨?_, ?_, ?_, ?_, ?_, ?_, ?_, ?_, ?_, ?_, ?_⟩ <;>
      exact isWordOf_regByte rfl rfl (by simp only [BitVec.toNat_ofNat]; omega)
  · cases hdec : decodeWord w with
    | ok i => exact .inr ⟨i, rfl⟩
    | error e => exact .inl (illegal_of_decodeWord hdec).2

/-- Settles O5: the decoder computes each of the words. -/
theorem sampleWordsDecode : Obligations.SampleWordsDecode := by
  unfold Obligations.SampleWordsDecode
  decide

end Sys2Proof.Proofs
end

section
/-! SUPPORT. The cycle (spec/40_cycle.md R91, R93, R101): what a Step does in each mode, what its fetch answers, and
sequences of Steps. -/

namespace Sys2Proof.Machine

open Sys2Proof.Claims

/-! ### Resuming LDKR (R183) -/

theorem resumeLdkr_noKey {s : State} (x : RegIdx) (h : s.key = none) : resumeLdkr x s = .next s := by
  simp only [resumeLdkr, h]

theorem resumeLdkr_key {s : State} {k : Nibble} (x : RegIdx) (h : s.key = some k) :
    resumeLdkr x s = .next (((s.setV x (zextKey k)).setMode .ready).advance 2) := by
  simp only [resumeLdkr, h, done_eq]

/-- A Step that waits never fails. -/
theorem exists_resumeLdkr_next (x : RegIdx) (s : State) : ∃ t, resumeLdkr x s = .next t := by
  cases hkey : s.key with
  | none => exact ⟨_, resumeLdkr_noKey x hkey⟩
  | some k => exact ⟨_, resumeLdkr_key x hkey⟩

/-- What a waiting Step leaves: the same state, or the resumed one. -/
theorem resumeLdkr_next {x : RegIdx} {s t : State} (h : resumeLdkr x s = .next t) :
    t = s ∨ ∃ k, s.key = some k ∧ t = ((s.setV x (zextKey k)).setMode .ready).advance 2 := by
  cases hkey : s.key with
  | none =>
    rw [resumeLdkr_noKey x hkey] at h
    cases h
    exact .inl rfl
  | some k =>
    rw [resumeLdkr_key x hkey] at h
    cases h
    exact .inr ⟨k, rfl, rfl⟩

/-! ### The two modes (R91) -/

theorem step_awaitingKey {s : State} {x : RegIdx} (h : s.mode = .awaitingKey x) : step s = resumeLdkr x s := by
  simp only [step, cycle, h]

theorem step_ready {s : State} (h : s.mode = .ready) : step s = orRaise s.fetchInstr fun i => exec i s := by
  simp only [step, cycle, h]

theorem step_ready_ok {s : State} {i : Instr} (h : s.mode = .ready) (hi : s.fetchInstr = .ok i) :
    step s = exec i s := by
  rw [step_ready h, hi, orRaise_ok]

theorem step_ready_error {s : State} {e : Fault} (h : s.mode = .ready) (he : s.fetchInstr = .error e) :
    step s = .fault e := by
  rw [step_ready h, he, orRaise_error]

/-! ### The fetch (R91, R204) -/

theorem fetchInstr_eq (s : State) :
    s.fetchInstr =
      if s.pc.toNat + 1 ≤ 0xFFF then decodeFetched (wordAt s s.pc.toNat)
      else .error (.addressOutOfRange (max s.pc.toNat 0x1000)) := by
  rw [State.fetchInstr, fetchWord_eq]
  by_cases hpc : s.pc.toNat + 1 ≤ 0xFFF
  · rw [if_pos hpc, if_pos hpc, wordAt_eq]
  · rw [if_neg hpc, if_neg hpc]

theorem decodeFetched_illegal {w : Word} (h : Illegal w) : decodeFetched w = .error (.decodeError w) := by
  simp only [decodeFetched, (decodeWord_error_iff w).mpr h]

/-- An instruction is fetched only from an address whose two bytes lie in memory. -/
theorem pc_le_of_fetchInstr {s : State} {i : Instr} (h : s.fetchInstr = .ok i) : s.pc.toNat ≤ 0xFFE := by
  rw [fetchInstr_eq] at h
  split at h
  · omega
  · cases h

/-! ### The returned value (R93) -/

theorem stepResult_noKey {s : State} {x : RegIdx} (h : s.mode = .awaitingKey x) (hkey : s.key = none) :
    stepResult s = .waiting := by
  simp only [stepResult, h, hkey]

theorem stepResult_key {s : State} {x : RegIdx} {k : Nibble} (h : s.mode = .awaitingKey x) (hkey : s.key = some k) :
    stepResult s = .executed (.ldkr x) := by
  simp only [stepResult, h, hkey]

theorem stepResult_ready_error {s : State} {e : Fault} (h : s.mode = .ready) (he : s.fetchInstr = .error e) :
    stepResult s = .error e := by
  simp only [stepResult, h, he]

theorem stepResult_ready_ok {s : State} {i : Instr} (h : s.mode = .ready) (hi : s.fetchInstr = .ok i) :
    stepResult s = returnedBy i (exec i s) := by
  simp only [stepResult, h, hi]

theorem returnedBy_error_iff {i : Instr} {r : Result} {e : Fault} : returnedBy i r = .error e ↔ r = .fault e := by
  cases r with
  | next t => cases i <;> simp [returnedBy]
  | fault | refused => simp [returnedBy]

theorem returnedBy_executed_iff {i j : Instr} {r : Result} :
    returnedBy i r = .executed j ↔ i = j ∧ isLdkr i = false ∧ ∃ t, r = .next t := by
  cases r with
  | next t => cases i <;> simp [returnedBy, isLdkr]
  | fault | refused => simp [returnedBy]

/-- Only LDKR returns Waiting, and it always does, since its entry never fails (R183). -/
theorem returnedBy_exec_waiting_iff {i : Instr} {s : State} :
    returnedBy i (exec i s) = .waiting ↔ ∃ x, i = .ldkr x := by
  constructor
  · intro h
    cases hr : exec i s with
    | next t => cases i <;> simp_all [returnedBy]
    | fault | refused => simp [hr, returnedBy] at h
  · rintro ⟨x, rfl⟩
    rfl

/-! ### Sequences of Steps -/

theorem run_succ_next {M : Host.Core} {k : Nat} {s t : M.State} :
    M.run (k + 1) s = .next t ↔ ∃ u, M.step s = .next u ∧ M.run k u = .next t := by
  rw [Host.Core.run]
  cases M.step s with
  | next u => simp
  | fault | refused => simp

/-- A state a Step leaves as it is stays through any number of Steps (R101). -/
theorem run_of_stuck {s : State} (h : Safety.Stuck s) (k : Nat) : Sys2Proof.core.run k s = .next s := by
  induction k with
  | zero => rfl
  | succ k ih => exact (run_succ_next (M := Sys2Proof.core)).mpr ⟨s, h, ih⟩

/-- What every Step keeps, every run of Steps keeps. -/
theorem run_invariant {P : State → Prop} (hstep : ∀ s t, P s → step s = .next t → P t) {n : Nat} {s t : State}
    (hs : P s) (h : Sys2Proof.core.run n s = .next t) : P t := by
  induction n generalizing s with
  | zero =>
    cases h
    exact hs
  | succ n ih =>
    obtain ⟨u, hu, hrun⟩ := (run_succ_next (M := Sys2Proof.core)).mp h
    exact ih (hstep s u hs hu) hrun

/-! ### The key (R96) -/

theorem sameBut_setKey (k : Option Nibble) (s : State) : SameBut [.key] s (setKey k s) := by
  intro p hp; cases p <;> simp_all [SamePart, State.getV]

/-- No Step changes the key (D16; log 18). -/
theorem key_of_step {s t : State} (h : step s = .next t) : t.key = s.key := by
  obtain ⟨x, _, hresume⟩ | ⟨i, _, _, hexec⟩ := step_next h
  · obtain rfl | ⟨k, _, rfl⟩ := resumeLdkr_next hresume
    · rfl
    · rfl
  · exact exec_sameBut hexec .key (key_notMem_partsWritten i)

/-! ### The timers (R95, R209, R210) -/

theorem resumeLdkr_tickTimers (x : RegIdx) (s : State) :
    resumeLdkr x (tickTimers s) = mapNext tickTimers (resumeLdkr x s) := by
  cases hkey : s.key with
  | none => rw [resumeLdkr_noKey x hkey, resumeLdkr_noKey x (s := tickTimers s) hkey]; rfl
  | some k => rw [resumeLdkr_key x hkey, resumeLdkr_key x (s := tickTimers s) hkey]; rfl

end Sys2Proof.Machine
end

section
/-! SUPPORT. Where `pc` goes, and what stands on the stack (spec/40_cycle.md R92; spec/41_control_flow.md R112, R114,
R119). -/

namespace Sys2Proof.Machine

open Sys2Proof.Claims

/-! ### Advancing (R11) -/

theorem advance_pc_toNat (s : State) (k : Nat) : (s.advance k).pc.toNat = (s.pc.toNat + k) % 0x10000 := by
  rw [State.advance_pc, BitVec.toNat_add, BitVec.toNat_ofNat, Nat.add_mod_mod]

/-- The end of an instruction moves `pc` by 2 from where it was, since nothing the instruction did before set it. -/
theorem pc_of_done {s u t : State} (h : u.done = .next t) (hpc : u.pc = s.pc) :
    t.pc.toNat = (s.pc.toNat + 2) % 0x10000 := by
  cases h
  rw [advance_pc_toNat, hpc]

theorem pc_of_skipIf {s t : State} {c : Bool} (h : s.skipIf c = .next t) :
    t.pc.toNat = (s.pc.toNat + 4) % 0x10000 ∨ t.pc.toNat = (s.pc.toNat + 2) % 0x10000 := by
  cases h
  cases c with
  | true => exact .inl (advance_pc_toNat s 4)
  | false => exact .inr (advance_pc_toNat s 2)

/-! ### The new `pc` of each group of instructions (R92) -/

theorem pc_of_skip {i : Instr} {s t : State} (h : exec i s = .next t) (hi : isSkip i = true) :
    t.pc.toNat = (s.pc.toNat + 4) % 0x10000 ∨ t.pc.toNat = (s.pc.toNat + 2) % 0x10000 := by
  cases i with
  | skipIfEqByte | skipIfNotEqByte | skipIfEqReg | skipIfNotEqReg | skipIfKey | skipIfNotKey => exact pc_of_skipIf h
  | _ => cases hi

theorem pc_of_ldkr {i : Instr} {s t : State} (h : exec i s = .next t) (hi : isLdkr i = true) : t.pc = s.pc := by
  cases i with
  | ldkr x => exact exec_sameBut h .pc (by simp [partsWritten])
  | _ => cases hi

theorem pc_of_memWrite_done {s t : State} {base : Nat} {vs : List Byte}
    (h : orRaise (s.memWrite base vs) State.done = .next t) : t.pc.toNat = (s.pc.toNat + 2) % 0x10000 := by
  obtain ⟨u, hwrite, hnext⟩ := orRaise_next.mp h
  exact pc_of_done hnext (sameBut_memWrite hwrite .pc (by simp))

/-- Every instruction that is no skip, no transfer of control and not LDKR moves `pc` by 2. -/
theorem pc_of_sequential {i : Instr} {s t : State} (h : exec i s = .next t) (hskip : isSkip i = false)
    (htransfer : isTransfer i = false) (hldkr : isLdkr i = false) : t.pc.toNat = (s.pc.toNat + 2) % 0x10000 := by
  cases i with
  | skipIfEqByte | skipIfNotEqByte | skipIfEqReg | skipIfNotEqReg | skipIfKey | skipIfNotKey => cases hskip
  | jp | call | jumpPlusV0 | ret => cases htransfer
  | ldkr => cases hldkr
  | storeBCD | storeRegs => exact pc_of_memWrite_done h
  | draw | loadRegs =>
    obtain ⟨vs, _, hnext⟩ := orRaise_next.mp h
    exact pc_of_done hnext rfl
  | _ => exact pc_of_done h rfl

/-! ### Transfers of control -/

theorem zext16_toNat (nnn : Addr12) : (zext16 nnn).toNat = nnn.toNat := by
  rw [zext16, BitVec.toNat_setWidth_of_le (by omega)]

theorem zextByte_toNat (v : Byte) : (zextByte v).toNat = v.toNat := by
  rw [zextByte, BitVec.toNat_setWidth_of_le (by omega)]

/-- The target of JumpPlusV0 fits in 16 bits: the largest is 0xFFF + 0xFF (R119). -/
theorem jumpPlusV0_target_toNat (nnn : Addr12) (v : Byte) :
    (zext16 nnn + zextByte v).toNat = nnn.toNat + v.toNat := by
  rw [BitVec.toNat_add, zext16_toNat, zextByte_toNat]
  omega

theorem exists_slot_of_pop {s u : State} {v : Word} (h : s.pop = .ok (v, u)) : ∃ j : Fin 16, v = s.stack[j.val] := by
  rcases Nat.eq_zero_or_pos s.sp.val with hempty | hpos
  · rw [pop_empty s hempty] at h
    cases h
  · rw [pop_ok s hpos] at h
    cases h
    exact ⟨⟨s.sp.val - 1, by omega⟩, rfl⟩

/-- A transfer of control leads to a target of at most 0x10FE or to an address that stood on the stack. -/
theorem pc_of_transfer {i : Instr} {s t : State} (h : exec i s = .next t) (hi : isTransfer i = true) :
    t.pc.toNat ≤ 0x10FE ∨ ∃ j : Fin 16, t.pc = s.stack[j.val] := by
  cases i with
  | jp nnn =>
    cases h
    exact .inl (by rw [State.setPc_pc, zext16_toNat]; omega)
  | jumpPlusV0 nnn =>
    cases h
    exact .inl (by rw [State.setPc_pc, jumpPlusV0_target_toNat]; omega)
  | call nnn =>
    obtain ⟨u, _, hnext⟩ := orRaise_next.mp h
    cases hnext
    exact .inl (by rw [State.setPc_pc, zext16_toNat]; omega)
  | ret =>
    obtain ⟨⟨v, u⟩, hpop, hnext⟩ := orRaise_next.mp h
    cases hnext
    exact .inr (exists_slot_of_pop hpop)
  | _ => cases hi

/-! ### Return addresses -/

theorem stack_of_push {s u : State} {v : Word} (h : s.push v = .ok u) (j : Fin 16) :
    u.stack[j.val] = v ∨ u.stack[j.val] = s.stack[j.val] := by
  rcases Nat.lt_or_ge s.sp.val 16 with hlt | hfull
  · rw [push_ok s v hlt] at h
    cases h
    by_cases hj : s.sp.val = j.val
    · exact .inl (by simp [hj])
    · exact .inr (Vector.getElem_set_ne hlt j.isLt hj)
  · rw [push_full s v (by omega)] at h
    cases h

/-- After an instruction a stack slot holds what it held, or the address after the instruction (R114). -/
theorem stack_of_exec {i : Instr} {s t : State} (h : exec i s = .next t) (j : Fin 16) :
    t.stack[j.val] = s.pc + 2 ∨ t.stack[j.val] = s.stack[j.val] := by
  by_cases hmem : .stack ∈ partsWritten i
  · obtain ⟨nnn, rfl⟩ := stack_mem_partsWritten hmem
    obtain ⟨u, hpush, hnext⟩ := orRaise_next.mp h
    cases hnext
    exact stack_of_push hpush j
  · have hstack : t.stack = s.stack := exec_sameBut h .stack hmem
    exact .inr (by rw [hstack])

/-! ### The bounds (R92, D9) -/

/-- An instruction fetched from memory, with return addresses up to 0x1000, leaves `pc` within the bound: the farthest
sequential move is a skip to 0x1002. -/
theorem exec_pc_le {i : Instr} {s t : State} (hpc : s.pc.toNat ≤ 0xFFE)
    (hstack : ∀ j : Fin 16, s.stack[j.val].toNat ≤ 0x1000) (h : exec i s = .next t) : t.pc.toNat ≤ 0x10FE := by
  by_cases htransfer : isTransfer i = true
  · obtain hle | ⟨j, hj⟩ := pc_of_transfer h htransfer
    · exact hle
    · have := hstack j
      rw [hj]; omega
  by_cases hskip : isSkip i = true
  · have := pc_of_skip h hskip
    omega
  by_cases hldkr : isLdkr i = true
  · rw [pc_of_ldkr h hldkr]; omega
  · have := pc_of_sequential h (Bool.eq_false_iff.mpr hskip) (Bool.eq_false_iff.mpr htransfer)
      (Bool.eq_false_iff.mpr hldkr)
    omega

theorem exec_stack_le {i : Instr} {s t : State} (hpc : s.pc.toNat ≤ 0xFFE)
    (hstack : ∀ j : Fin 16, s.stack[j.val].toNat ≤ 0x1000) (h : exec i s = .next t) (j : Fin 16) :
    t.stack[j.val].toNat ≤ 0x1000 := by
  obtain hpush | hsame := stack_of_exec h j
  · rw [hpush]
    bv_omega
  · rw [hsame]
    exact hstack j

/-- A wait begins only by LDKR, which leaves `pc` where it was fetched from (R183). -/
theorem pc_of_exec_awaitingKey {i : Instr} {s t : State} {x : RegIdx} (hready : s.mode = .ready)
    (h : exec i s = .next t) (hwait : t.mode = .awaitingKey x) : t.pc = s.pc := by
  refine pc_of_ldkr h (mode_mem_partsWritten (mem_partsWritten_of_changed h fun hsame => ?_))
  have hmode : t.mode = s.mode := hsame
  rw [hwait, hready] at hmode
  cases hmode

theorem pcBounded_of_exec {i : Instr} {s t : State} (hs : PcBounded s) (hready : s.mode = .ready)
    (hpc : s.pc.toNat ≤ 0xFFE) (h : exec i s = .next t) : PcBounded t := by
  obtain ⟨_, hstack, _⟩ := hs
  refine ⟨exec_pc_le hpc hstack h, exec_stack_le hpc hstack h, fun x hwait => ?_⟩
  rw [pc_of_exec_awaitingKey hready h hwait]
  exact hpc

/-- The resumed Step goes on from an address the wait's bound holds for, so the advance stays below the bound. -/
theorem pcBounded_of_resumeLdkr {x : RegIdx} {s t : State} (hs : PcBounded s) (hmode : s.mode = .awaitingKey x)
    (h : resumeLdkr x s = .next t) : PcBounded t := by
  obtain rfl | ⟨k, _, rfl⟩ := resumeLdkr_next h
  · exact hs
  · obtain ⟨_, hstack, hwait⟩ := hs
    refine ⟨?_, hstack, fun _ hready => nomatch hready⟩
    have hpc := hwait x hmode
    rw [advance_pc_toNat, State.setMode_pc, State.setV_pc]
    omega

end Sys2Proof.Machine
end

section
/-! SUPPORT. The host operations (spec/40_cycle.md R90, R95, R97; spec/70_reset_and_hazards.md R232): what a schedule
keeps, and the snapshot byte by byte. -/

namespace Sys2Proof.Machine

/-! ### Schedules (R95) -/

/-- What every operation keeps, every schedule keeps. -/
theorem runSchedule_invariant {P : State → Prop} (hop : ∀ op s, P s → P (runHostOp op s).2) (ops : List HostOp)
    {s : State} (hs : P s) : P (runSchedule ops s) := by
  induction ops generalizing s with
  | nil => exact hs
  | cons op ops ih => exact ih (hop op s hs)

/-- An operation leaves its next state or, on an error, the state it began in (R202). -/
theorem stateAfter_of_next {P : State → Prop} {s : State} {r : Result} (hs : P s) (hnext : ∀ t, r = .next t → P t) :
    P (stateAfter s r) := by
  cases r with
  | next t => exact hnext t rfl
  | fault | refused => exact hs

/-! ### The canonical form of memory -/

theorem mem_of_loadRom {rom : List Byte} {s t : State} (h : loadRom rom s = .next t) :
    rom.length ≤ 3584 ∧ t.mem = s.mem.writeList Config.romBase rom := by
  unfold loadRom at h
  split at h
  · cases h
  · split at h
    · cases h
    · next hsize =>
      cases h
      exact ⟨Nat.le_of_not_lt hsize, rfl⟩

theorem loadRom_wf {rom : List Byte} {s t : State} (hs : s.mem.wf) (h : loadRom rom s = .next t) : t.mem.wf := by
  obtain ⟨hsize, hmem⟩ := mem_of_loadRom h
  rw [hmem]
  exact Memory.wf_writeList hs Config.romBase rom (by unfold Config.romBase; omega)

theorem runHostOp_wf (op : HostOp) (s : State) (hs : s.mem.wf) : (runHostOp op s).2.mem.wf := by
  cases op with
  | loadRom rom => exact stateAfter_of_next (P := fun t => t.mem.wf) hs fun t h => loadRom_wf hs h
  | step => exact stateAfter_of_next (P := fun t => t.mem.wf) hs fun t h => Proofs.stepKeepsMemoryCanonical s t hs h
  | tickTimers | setKey | readFramebuffer | readTimers => exact hs
  | reset => exact Memory.wf_nil s.mem.font

/-! ### The snapshot of the framebuffer (R97) -/

/-- In a concatenation of blocks of one length `n`, place `j * n + i` is place `i` of block `j`. -/
theorem getElem?_flatMap_of_length {α β : Type} {f : α → List β} {n i : Nat} (hf : ∀ a, (f a).length = n) (hi : i < n)
    (l : List α) (j : Nat) : (l.flatMap f)[j * n + i]? = l[j]?.bind fun a => (f a)[i]? := by
  induction l generalizing j with
  | nil => rfl
  | cons a l ih =>
    rw [List.flatMap_cons]
    cases j with
    | zero =>
      rw [Nat.zero_mul, Nat.zero_add, List.getElem?_append_left (by rw [hf]; exact hi)]
      rfl
    | succ j =>
      have hplace : (j + 1) * n + i = n + (j * n + i) := by rw [Nat.succ_mul]; omega
      rw [hplace, List.getElem?_append_right (by rw [hf]; omega), hf, Nat.add_sub_cancel_left, ih,
        List.getElem?_cons_succ]

theorem readFramebuffer_length (s : State) : (readFramebuffer s).length = 2048 := by
  simp [readFramebuffer, List.length_flatMap]

/-- The byte at `y * 64 + x` is the pixel `(x, y)`: 1 when it is set (D17; log 17). -/
theorem readFramebuffer_get (s : State) {x y : Nat} (hx : x < 64) (hy : y < 32) :
    (readFramebuffer s)[y * 64 + x]? = some (if fbGet s.fb x y then 1 else 0) := by
  rw [readFramebuffer, getElem?_flatMap_of_length (by simp) hx]
  simp [fbGet, hx, hy]

end Sys2Proof.Machine
end

section
/-! The statements of spec/40_cycle.md: the Step, `pc`, waits and idle loops, the timers, the key, and the reads of the
host. -/

namespace Sys2Proof.Proofs

open Sys2Proof.Machine Sys2Proof.Claims

/-- Settles O53: a resumed wait goes on from an address in memory, and so does an executed instruction, whose fetch
checked it. -/
theorem stepKeepsPcBounded : Obligations.StepKeepsPcBounded := by
  intro s t hs h
  obtain ⟨x, hmode, hresume⟩ | ⟨i, hready, hfetch, hexec⟩ := step_next h
  · exact pcBounded_of_resumeLdkr hs hmode hresume
  · exact pcBounded_of_exec hs hready (pc_le_of_fetchInstr hfetch) hexec

/-- Settles O7: `fetchInstr_eq` tells the two errors of a fetch apart, and a waiting Step fetches nothing. -/
theorem stepFailsBeforeExecution : Obligations.StepFailsBeforeExecution := by
  intro s
  refine ⟨fun hready hpc => ?_, fun hready hpc hillegal => ?_, fun x hmode => ?_⟩
  · exact step_ready_error hready (by rw [fetchInstr_eq, if_neg (by omega)])
  · exact step_ready_error hready (by rw [fetchInstr_eq, if_pos hpc, decodeFetched_illegal hillegal])
  · rw [step_awaitingKey hmode]
    exact exists_resumeLdkr_next x s

/-- Settles O8, by the lemma of each group of instructions. -/
theorem pcAfterEachInstruction : Obligations.PcAfterEachInstruction :=
  fun _ _ _ h => ⟨pc_of_skip h, pc_of_ldkr h, pc_of_sequential h⟩

/-- Settles O9, by the paths of a Step: waiting without and with a key, a failed fetch, and an execution, whose
returned value `returnedBy` gives. -/
theorem stepReturnsItsResult : Obligations.StepReturnsItsResult := by
  intro s
  cases hmode : s.mode with
  | awaitingKey x =>
    cases hkey : s.key with
    | none => simp [step_awaitingKey hmode, resumeLdkr_noKey x hkey, stepResult_noKey hmode hkey]
    | some k =>
      simp [step_awaitingKey hmode, resumeLdkr_key x hkey, stepResult_key hmode hkey, eq_comm (a := Instr.ldkr x)]
  | ready =>
    cases hfetch : s.fetchInstr with
    | error e => simp [step_ready_error hmode hfetch, stepResult_ready_error hmode hfetch]
    | ok i =>
      rw [step_ready_ok hmode hfetch, stepResult_ready_ok hmode hfetch]
      refine ⟨fun e => returnedBy_error_iff.symm, ?_, fun j => ?_⟩
      · simp [returnedBy_exec_waiting_iff]
      · rw [returnedBy_executed_iff]
        constructor
        · rintro ⟨rfl, hi⟩
          exact .inr ⟨rfl, rfl, hi⟩
        · rintro (⟨x, k, _, hwait, _⟩ | ⟨_, hi, hj⟩)
          · cases hwait
          · cases hi
            exact ⟨rfl, hj⟩

/-- Settles O42: a waiting Step without a key leaves the state as it is. -/
theorem waitWithoutKeyLastsForever : Obligations.WaitWithoutKeyLastsForever := by
  intro x s k hmode hkey
  have hstuck : step s = .next s := by rw [step_awaitingKey hmode, resumeLdkr_noKey x hkey]
  exact run_of_stuck hstuck k

/-- Settles O43: the jump sets `pc` to the value it has. -/
theorem jumpToSelfIdles : Obligations.JumpToSelfIdles := by
  intro nnn s k hready hpc hself hdecode
  have htarget : zext16 nnn = s.pc := BitVec.eq_of_toNat_eq (by rw [zext16_toNat, hself])
  have hstuck : step s = .next s := by
    rw [step_of_decode_wordAt hready (by omega) hdecode, exec, execJp, htarget]
    rfl
  exact run_of_stuck hstuck k

/-- Settles O46: a tick is a change that `exec_mapUnread` covers, and a waiting Step does not look at the timers. -/
theorem ticksCommuteWithOtherInstructions : Obligations.TicksCommuteWithOtherInstructions := by
  refine ⟨fun i s hi => ?_, fun x s hmode => ?_⟩
  · refine exec_mapUnread tickTimer tickTimer id id s i (fun x hx => ?_) (fun x hx => ?_) fun _ _ _ => rfl
    · obtain ⟨hload, hset, _⟩ := hi x
      exact absurd hx (not_or.mpr ⟨hload, hset⟩)
    · obtain ⟨_, _, hsound⟩ := hi x
      exact absurd hx hsound
  · rw [step_awaitingKey hmode, step_awaitingKey (s := tickTimers s) hmode]
    exact resumeLdkr_tickTimers x s

/-- Settles O52: memory is canonical at creation whatever the font, and each of the seven operations keeps it so. -/
theorem reachableMemoryIsCanonical : Obligations.ReachableMemoryIsCanonical := by
  rintro s ⟨font, k, ops, rfl⟩
  exact runSchedule_invariant (P := fun s => s.mem.wf) runHostOp_wf ops (Memory.wf_nil font)

/-- Settles O58, by `readFramebuffer_get`. -/
theorem snapshotIsRowMajor : Obligations.SnapshotIsRowMajor := by
  refine fun s => ⟨rfl, rfl, readFramebuffer_length s, fun X Y hX hY => ⟨_, readFramebuffer_get s hX hY, ?_⟩⟩
  cases fbGet s.fb X Y <;> decide

/-- Settles O60: the key SetKey wrote is kept by each Step, hence by a run. -/
theorem keyPersistsThroughSteps : Obligations.KeyPersistsThroughSteps := fun k _ s _ =>
  ⟨sameBut_setKey k s, setKey_key k s,
    run_invariant (P := fun s => s.key = k) (fun _ _ hs h => (key_of_step h).trans hs) (setKey_key k s)⟩

/-- Settles O6, by `step_of_decode_wordAt`. -/
theorem stepRunsTheDecodedInstruction : Obligations.StepRunsTheDecodedInstruction := fun _ _ => step_of_decode_wordAt

/-- Settles O59: both are what `runHostOp` answers. -/
theorem readTimersReturnsBoth : Obligations.ReadTimersReturnsBoth := fun _ => ⟨rfl, rfl⟩

end Sys2Proof.Proofs
end

section
/-! SUPPORT. What the control flow instructions answer (spec/41_control_flow.md R110, R112, R114): the skips in one
lemma over their condition, RET and CALL on a stack that admits them and on one that does not, and a pop that undoes a
push. -/

namespace Sys2Proof.Claims

open Sys2Proof.Machine

theorem SameBut.mono {c d : List Part} {s t : State} (h : SameBut c s t) (hcd : c ⊆ d) : SameBut d s t :=
  fun p hp => h p fun hc => hp (hcd hc)

theorem advances_advance (s : State) (k : Nat) : Advances s (s.advance k) k := by
  intro hfits
  rw [advance_pc_toNat, Nat.mod_eq_of_lt hfits]

/-- `5xyn` and `9xyn` with `n ≠ 0` are in R76's table. -/
theorem illegal_of_regSkip_selector {op : Nat} (x y : RegIdx) {n : Fin 16} (hn : n ≠ 0)
    (hop : op = 0x5000 ∨ op = 0x9000) :
    Illegal (BitVec.ofNat 16 (op + 0x100 * x.val + 0x10 * y.val + n.val)) := by
  have hn0 : n.val ≠ 0 := Fin.val_ne_zero_iff.mpr hn
  unfold Illegal
  rw [BitVec.toNat_ofNat]
  rcases hop with rfl | rfl
  · exact .inl (by omega)
  · exact .inr (.inr (.inl (by omega)))

end Sys2Proof.Claims

namespace Sys2Proof.Machine

open Sys2Proof.Claims

/-! ### Skips (R110) -/

/-- A skip always answers a next state, which differs in `pc` alone; `k` is how far its condition moves `pc`. -/
theorem exists_skipIf_next (s : State) {c : Bool} {k : Nat} (hk : (if c then 4 else 2) = k) :
    ∃ t, s.skipIf c = .next t ∧ Advances s t k ∧ SameBut [.pc] s t :=
  ⟨s.advance k, by rw [skipIf_eq, hk], advances_advance s k, sameBut_setPc s _⟩

/-! ### RET and CALL (R112, R114) -/

theorem exec_ret_of_pop {s u : State} {v : Word} (h : s.pop = .ok (v, u)) : exec .ret s = .next (u.setPc v) := by
  rw [exec, execRet, h, orRaise_ok]

theorem exec_ret_ok (s : State) (h : 0 < s.sp.val) :
    exec .ret s = .next ({ s with sp := ⟨s.sp.val - 1, by omega⟩ }.setPc
      (s.stack[s.sp.val - 1]'(by have := s.sp.isLt; omega))) := exec_ret_of_pop (pop_ok s h)

theorem exec_ret_empty (s : State) (h : s.sp.val = 0) : exec .ret s = .fault .stackUnderflow := by
  rw [exec, execRet, pop_empty s h, orRaise_error]

theorem exec_call_ok (nnn : Addr12) (s : State) (h : s.sp.val < 16) :
    exec (.call nnn) s = .next ({ s with
      stack := s.stack.set s.sp.val (s.pc + 2)
      sp := ⟨s.sp.val + 1, by omega⟩ }.setPc (zext16 nnn)) := by
  rw [exec, execCall, push_ok s _ h, orRaise_ok]

theorem exec_call_full (nnn : Addr12) (s : State) (h : s.sp.val = 16) :
    exec (.call nnn) s = .fault .stackOverflow := by
  rw [exec, execCall, push_full s _ h, orRaise_error]

/-- The address CALL pushes (D3). -/
theorem returnAddress_toNat (s : State) : (s.pc + 2).toNat = (s.pc.toNat + 2) % 0x10000 := BitVec.toNat_add s.pc 2

/-- In any state with the stack and depth a push left, a pop takes the pushed value and leaves the depth there was
before the push. -/
theorem pop_of_push {s t u : State} {v : Word} (h : s.push v = .ok t) (hstack : u.stack = t.stack)
    (hsp : u.sp = t.sp) : u.pop = .ok (v, { u with sp := s.sp }) := by
  rcases Nat.lt_or_ge s.sp.val 16 with hlt | hfull
  · rw [push_ok s v hlt] at h
    cases h
    rw [pop_ok u (by rw [hsp]; exact Nat.succ_pos _)]
    simp [hstack, hsp]
  · rw [push_full s v (by omega)] at h
    cases h

end Sys2Proof.Machine
end

section
/-! The statements of spec/41_control_flow.md: SYS, RET, JP, CALL, the skips on bytes and registers, and JumpPlusV0. -/

namespace Sys2Proof.Proofs

open Sys2Proof.Machine Sys2Proof.Claims

/-- Settles O18: the CALL pushed `pc + 2`, and `pop_of_push` takes it back from every state with that stack and
depth. -/
theorem retReturnsAfterCall : Obligations.RetReturnsAfterCall := by
  intro nnn s t u hcall hstack hsp
  obtain ⟨w, hpush, hnext⟩ := orRaise_next.mp hcall
  cases hnext
  have hret : exec .ret u = .next ({ u with sp := s.sp }.setPc (s.pc + 2)) :=
    exec_ret_of_pop (pop_of_push hpush hstack hsp)
  exact ⟨_, hret, returnAddress_toNat s, rfl, (exec_sameBut hret).mono (by simp [partsWritten])⟩

/-- Settles O11: SYS is nothing but the end of a step. -/
theorem sysIsANoOp : Obligations.SysIsANoOp := fun _ s =>
  ⟨fun hcls hret => isWordOf_addr (sys_wf_iff.mpr ⟨hcls, hret⟩) rfl (Nat.zero_add _).symm,
    s.advance 2, rfl, advances_advance s 2, sameBut_setPc s _⟩

/-- Settles O12, by `exec_ret_ok` and `exec_ret_empty`. -/
theorem retPopsIntoPc : Obligations.RetPopsIntoPc := by
  intro s
  refine ⟨rfl, fun hpos => ?_, exec_ret_empty s⟩
  have hret := exec_ret_ok s hpos
  exact ⟨_, hret, rfl, rfl, (exec_sameBut hret).mono (by simp [partsWritten])⟩

/-- Settles O13: at its own address a jump sets `pc` to the value it has. -/
theorem jpSetsPc : Obligations.JpSetsPc := by
  intro nnn s
  refine ⟨isWordOf_addr rfl rfl rfl, s.setPc (zext16 nnn), rfl, zext16_toNat nnn, sameBut_setPc s _, fun hself => ?_⟩
  have htarget : zext16 nnn = s.pc := BitVec.eq_of_toNat_eq (by rw [zext16_toNat, hself])
  rw [htarget]
  rfl

/-- Settles O14, by `exec_call_ok` and `exec_call_full`; slot `sp` holds the return address. -/
theorem callPushesAndJumps : Obligations.CallPushesAndJumps := by
  intro nnn s
  refine ⟨isWordOf_addr rfl rfl rfl, fun hlt => ?_, exec_call_full nnn s⟩
  have hcall := exec_call_ok nnn s hlt
  refine ⟨_, hcall, zext16_toNat nnn, rfl, fun j => ?_, (exec_sameBut hcall).mono (by simp [partsWritten])⟩
  rw [← returnAddress_toNat, ← apply_ite BitVec.toNat]
  simp only [State.setPc_stack, Vector.getElem_set, eq_comm]

/-- Settles O15: both skips are instances of `exists_skipIf_next`. -/
theorem byteSkips : Obligations.ByteSkips := by
  intro x kk s
  refine ⟨?_, ?_, exists_skipIf_next s (by simp), exists_skipIf_next s (by simp)⟩ <;>
    exact isWordOf_regByte rfl rfl (by simp only [BitVec.toNat_ofNat]; omega)

/-- Settles O16: both skips are instances of `exists_skipIf_next`, and the other words of their groups are illegal. -/
theorem registerSkips : Obligations.RegisterSkips := by
  intro x y s
  refine ⟨?_, ?_, fun n op hn hop => (decodeWord_error_iff _).mpr (illegal_of_regSkip_selector x y hn hop),
    exists_skipIf_next s (by simp), exists_skipIf_next s (by simp)⟩ <;>
    exact isWordOf_regReg rfl rfl (by simp only [BitVec.toNat_ofNat]; omega)

/-- Settles O17, by `jumpPlusV0_target_toNat`: the target fits in 16 bits. -/
theorem jumpPlusV0AddsV0 : Obligations.JumpPlusV0AddsV0 := fun nnn s =>
  ⟨isWordOf_addr rfl rfl rfl, s.setPc (zext16 nnn + zextByte (s.getV 0)), rfl, jumpPlusV0_target_toNat nnn (s.getV 0),
    sameBut_setPc s _⟩

end Sys2Proof.Proofs
end

section
/-! SUPPORT. What the register and arithmetic instructions answer (spec/42_alu.md R131): the frame of a register write
and of a result with its flag, each said once, and the values they write as numbers. -/

namespace Sys2Proof.Claims

/-! ### The words of the ALU group and of the byte instructions (R75) -/

theorem isWordOf_base_regByte {n : Nat} {op : Nibble} {x : RegIdx} {kk : Byte} {i : Instr} (hwf : i.wf = true)
    (henc : encode i = layoutXK op x kk) (hn : n = op.toNat * 4096) : IsWordOf (n + 0x100 * x.val + kk.toNat) i :=
  isWordOf_regByte hwf henc (by omega)

theorem isWordOf_base_regReg {n : Nat} {op v : Nibble} {x y : RegIdx} {i : Instr} (hwf : i.wf = true)
    (henc : encode i = layoutXY op x y v) (hn : n = op.toNat * 4096 + v.toNat) :
    IsWordOf (n + 0x100 * x.val + 0x10 * y.val) i :=
  isWordOf_regReg hwf henc (by omega)

end Sys2Proof.Claims

namespace Sys2Proof.Machine

open Sys2Proof.Claims

/-! ### Writing a register, and a result with its flag (R131) -/

theorem setV_advance_frame (s : State) (x : RegIdx) (v : Byte) :
    OtherRegs [x] s ((s.setV x v).advance 2) ∧ Advances s ((s.setV x v).advance 2) 2 ∧
      SameBut [.V, .pc] s ((s.setV x v).advance 2) :=
  ⟨fun _ hj => s.getV_setV_ne v (List.ne_of_not_mem_cons hj), advances_advance (s.setV x v) 2,
    (sameBut_setV s x v).done rfl⟩

theorem getV_setV_advance (s : State) (x : RegIdx) (v : Byte) : ((s.setV x v).advance 2).getV x = v :=
  s.getV_setV_same x v

theorem setVFlag_advance_frame (s : State) (x : RegIdx) (r f : Byte) :
    OtherRegs [x, 15] s ((s.setVFlag x r f).advance 2) ∧ Advances s ((s.setVFlag x r f).advance 2) 2 ∧
      SameBut [.V, .pc] s ((s.setVFlag x r f).advance 2) := by
  refine ⟨fun j hj => ?_, advances_advance (s.setVFlag x r f) 2, (sameBut_setVFlag s x r f).done rfl⟩
  obtain ⟨hx, hvf⟩ : j ≠ x ∧ j ≠ 15 := by simpa using hj
  exact getV_of_setVFlag_done rfl hx hvf

/-- The destination holds the result, unless it is `VF`. -/
theorem getV_setVFlag_advance {x : RegIdx} (s : State) (r f : Byte) (hx : x ≠ 15) :
    ((s.setVFlag x r f).advance 2).getV x = r := by
  rw [State.getV_advance, State.getV_setVFlag, if_neg (show x ≠ vf from hx), if_pos rfl]

/-- `VF` holds the flag, also when it is the destination (D4). -/
theorem getV_vf_setVFlag_advance (s : State) (x : RegIdx) (r f : Byte) :
    ((s.setVFlag x r f).advance 2).getV 15 = f :=
  (s.getV_setVFlag x vf r f).trans (if_pos rfl)

/-- A result `g` and a flag `f` of `V[x]` alone do not see a change of another register (D29). -/
theorem exists_setVFlag_next_of_setV (g f : Byte → Byte) (s : State) {x r : RegIdx} (v : Byte) (hr : r ≠ x) :
    ∃ u, ((s.setV r v).setVFlag x (g ((s.setV r v).getV x)) (f ((s.setV r v).getV x))).done = .next u ∧
      OtherRegs [r] ((s.setVFlag x (g (s.getV x)) (f (s.getV x))).advance 2) u := by
  refine ⟨_, rfl, fun j hj => ?_⟩
  rw [s.getV_setV_ne v hr.symm]
  simp only [State.getV_advance, State.getV_setVFlag, s.getV_setV_ne v (List.ne_of_not_mem_cons hj)]

/-! ### Results and flags as numbers -/

theorem byte_sub_toNat (a b : Byte) : ((a - b).toNat : Int) = ((a.toNat : Int) - b.toNat) % 256 := by
  rw [BitVec.toNat_sub]
  omega

theorem byte_shiftRight_one_toNat (a : Byte) : (a >>> 1).toNat = a.toNat / 2 := by
  rw [BitVec.toNat_ushiftRight, Nat.shiftRight_one]

theorem byte_shiftLeft_one_toNat (a : Byte) : (a <<< 1).toNat = 2 * a.toNat % 256 := by
  rw [BitVec.toNat_shiftLeft, Nat.shiftLeft_eq, Nat.mul_comm]

/-- Adding `b` twice is adding `2 * b` modulo 256 (95_test_vectors.md P-a). -/
theorem byte_add_twice (a b : Byte) : a + b + b = a + BitVec.ofNat 8 (2 * b.toNat) := by
  rw [BitVec.add_assoc, ← BitVec.two_mul, BitVec.ofNat_mul, BitVec.ofNat_toNat, BitVec.setWidth_eq]

/-- No bit of a masked byte lies outside the mask. -/
theorem byte_and_and_not (kk d : Byte) : kk &&& d &&& ~~~kk = 0 := by
  rw [BitVec.and_comm, ← BitVec.and_assoc, BitVec.not_and_self]
  exact BitVec.zero_and

theorem flagByte_toNat (c : Bool) : (flagByte c).toNat = c.toNat := by
  cases c <;> rfl

theorem carryFlag_toNat (a b : Byte) : (carryFlag a b).toNat = if a.toNat + b.toNat > 255 then 1 else 0 := by
  rw [carryFlag, flagByte_toNat, Bool.toNat, Bool.cond_decide]

theorem noBorrowFlag_toNat (a b : Byte) : (noBorrowFlag a b).toNat = if a.toNat > b.toNat then 1 else 0 := by
  rw [noBorrowFlag, flagByte_toNat, Bool.toNat, Bool.cond_decide]

theorem lowBitFlag_toNat (a : Byte) : (lowBitFlag a).toNat = a.toNat % 2 := by
  rw [lowBitFlag, flagByte_toNat, BitVec.getLsbD, Nat.toNat_testBit]
  omega

theorem highBitFlag_toNat (a : Byte) : (highBitFlag a).toNat = a.toNat / 128 := by
  rw [highBitFlag, flagByte_toNat, BitVec.getLsbD, Nat.toNat_testBit]
  omega

end Sys2Proof.Machine
end

section
/-! The statements of spec/42_alu.md: the loads, the sums and differences, the bitwise operations, the shifts, and
Random. -/

namespace Sys2Proof.Proofs

open Sys2Proof.Machine Sys2Proof.Claims

/-- Settles O23: `VF` holds the carry, whatever the destination. -/
theorem addRegSumAndCarry : Obligations.AddRegSumAndCarry := by
  intro x y s
  refine ⟨isWordOf_base_regReg rfl rfl rfl, _, rfl, fun hx => ?_, ?_, setVFlag_advance_frame s x _ _⟩
  · rw [getV_setVFlag_advance s _ _ hx, BitVec.toNat_add]
  · rw [getV_vf_setVFlag_advance, carryFlag_toNat]

/-- Settles O24, by `byte_sub_toNat` and the strict comparison of `noBorrowFlag_toNat`. -/
theorem subDifferenceAndFlag : Obligations.SubDifferenceAndFlag := by
  intro x y s
  refine ⟨isWordOf_base_regReg rfl rfl rfl, _, rfl, fun hx => ?_, ?_, setVFlag_advance_frame s x _ _⟩
  · rw [getV_setVFlag_advance s _ _ hx, byte_sub_toNat]
  · rw [getV_vf_setVFlag_advance, noBorrowFlag_toNat]

/-- Settles O25: the destination is `V[y]` (C7), so `V[x]` is among the registers of the frame. -/
theorem subnWritesVy : Obligations.SubnWritesVy := by
  intro x y s
  refine ⟨isWordOf_base_regReg rfl rfl rfl, _, rfl, fun hy => ?_, ?_, setVFlag_advance_frame s y _ _⟩
  · rw [getV_setVFlag_advance s _ _ hy, byte_sub_toNat]
  · rw [getV_vf_setVFlag_advance, noBorrowFlag_toNat]

/-- Settles O26: result and flag are functions of `V[x]` alone, so `exists_setVFlag_next_of_setV` applies. -/
theorem shiftsByOne : Obligations.ShiftsByOne := by
  intro x y s
  refine ⟨isWordOf_base_regReg rfl rfl rfl, isWordOf_base_regReg rfl rfl rfl, ?_, ?_⟩
  · obtain ⟨hregs, hpc, hrest⟩ := setVFlag_advance_frame s x (s.getV x >>> 1) (lowBitFlag (s.getV x))
    refine ⟨_, rfl, fun hx => ?_, ?_, hregs, hpc, hrest,
      fun _ v hr _ => exists_setVFlag_next_of_setV (· >>> 1) lowBitFlag s v hr⟩
    · rw [getV_setVFlag_advance s _ _ hx, byte_shiftRight_one_toNat]
    · rw [getV_vf_setVFlag_advance, lowBitFlag_toNat]
  · obtain ⟨hregs, hpc, hrest⟩ := setVFlag_advance_frame s x (s.getV x <<< 1) (highBitFlag (s.getV x))
    refine ⟨_, rfl, fun hx => ?_, ?_, hregs, hpc, hrest,
      fun _ v hr _ => exists_setVFlag_next_of_setV (· <<< 1) highBitFlag s v hr⟩
    · rw [getV_setVFlag_advance s _ _ hx, byte_shiftLeft_one_toNat]
    · rw [getV_vf_setVFlag_advance, highBitFlag_toNat]

/-- Settles O19: LoadByte is one register write. -/
theorem loadByteLoads : Obligations.LoadByteLoads := fun x kk s =>
  ⟨isWordOf_base_regByte rfl rfl rfl, _, rfl, getV_setV_advance s x kk, setV_advance_frame s x kk⟩

/-- Settles O20: the second of two writes to `V[x]` is what stays, and `byte_add_twice` says it is the single one. -/
theorem addByteWraps : Obligations.AddByteWraps := by
  intro x kk s
  obtain ⟨hregs, hpc, hrest⟩ := setV_advance_frame s x (s.getV x + kk)
  refine ⟨isWordOf_base_regByte rfl rfl rfl, _, rfl, ?_, hregs, hpc, hrest, _, _, rfl, rfl, fun j => ?_⟩
  · rw [getV_setV_advance, BitVec.toNat_add]
  · by_cases hj : j = x
    · subst hj
      simp only [getV_setV_advance, byte_add_twice]
    · simp only [State.getV_advance, State.getV_setV_ne _ _ hj]

/-- Settles O21: LoadReg is one register write. -/
theorem loadRegCopies : Obligations.LoadRegCopies := fun x y s =>
  ⟨isWordOf_base_regReg rfl rfl rfl, _, rfl, getV_setV_advance s x (s.getV y), setV_advance_frame s x (s.getV y)⟩

/-- Settles O22: each is one register write, of a value whose bits are given by `BitVec.getLsbD_or` and its kin. -/
theorem bitwiseOps : Obligations.BitwiseOps := by
  intro x y s
  refine ⟨isWordOf_base_regReg rfl rfl rfl, isWordOf_base_regReg rfl rfl rfl, isWordOf_base_regReg rfl rfl rfl,
    ⟨_, rfl, fun k => ?_, setV_advance_frame s x _⟩, ⟨_, rfl, fun k => ?_, setV_advance_frame s x _⟩,
    ⟨_, rfl, fun k => ?_, setV_advance_frame s x _⟩⟩
  · rw [getV_setV_advance, BitVec.getLsbD_or]
  · rw [getV_setV_advance, BitVec.getLsbD_and]
  · rw [getV_setV_advance, BitVec.getLsbD_xor]

/-- Settles O27: a register write after one draw; no bit is both in the mask and outside it. -/
theorem randomIsMasked : Obligations.RandomIsMasked := by
  intro x kk s
  have hexec : exec (.random x kk) s = .next ((s.nextDraw.setV x (kk &&& Config.draw8 s.draws)).advance 2) := rfl
  obtain ⟨hregs, hpc, _⟩ := setV_advance_frame s.nextDraw x (kk &&& Config.draw8 s.draws)
  refine ⟨isWordOf_base_regByte rfl rfl rfl, _, hexec, getV_setV_advance _ x _, ?_, rfl, hregs, hpc,
    (exec_sameBut hexec).mono (by simp [partsWritten])⟩
  rw [getV_setV_advance, byte_and_and_not]

end Sys2Proof.Proofs
end

section
/-! SUPPORT. What the index and memory instructions answer (spec/43_index_memory.md R150 to R156; spec/20_memory.md R55,
R56): a checked store inside memory and past its end, the digits StoreBCD stores, the registers LoadRegs loads. -/

namespace Sys2Proof.Claims

open Sys2Proof.Machine

/-- The words of the group `FxKK`, whose `kk` is fixed (R75). -/
theorem isWordOf_base_reg {n : Nat} {op : Nibble} {x : RegIdx} {kk : Byte} {i : Instr} (hwf : i.wf = true)
    (henc : encode i = layoutXK op x kk) (hn : n = op.toNat * 4096 + kk.toNat) : IsWordOf (n + 0x100 * x.val) i :=
  isWordOf_regByte hwf henc (by omega)

theorem advances_of_sequential {i : Instr} {s t : State} (h : exec i s = .next t) (hskip : isSkip i = false)
    (htransfer : isTransfer i = false) (hldkr : isLdkr i = false) : Advances s t 2 := fun hfits =>
  (pc_of_sequential h hskip htransfer hldkr).trans (Nat.mod_eq_of_lt hfits)

end Sys2Proof.Claims

namespace Sys2Proof.Machine

open Sys2Proof.Claims

/-! ### A store of consecutive bytes (R55, R56) -/

theorem memWrite_done_ok (s : State) {base : Nat} {vs : List Byte} (h : base + vs.length ≤ 0x1000) :
    orRaise (s.memWrite base vs) State.done = .next ({ s with mem := s.mem.writeList base vs }.advance 2) := by
  rw [memWrite_ok s base vs h, orRaise_ok, State.done]

theorem memWrite_done_error (s : State) {base : Nat} {vs : List Byte} (h0 : 0 < vs.length)
    (h : 0x1000 < base + vs.length) :
    orRaise (s.memWrite base vs) State.done = .fault (.addressOutOfRange (max base 0x1000)) := by
  rw [memWrite_error s base vs h0 h, orRaise_error]

theorem read_of_memWrite_done_inside {s t : State} {base j : Nat} {vs : List Byte} {v : Byte}
    (h : orRaise (s.memWrite base vs) State.done = .next t) (hj : vs[j]? = some v) : t.mem.read (base + j) = v := by
  obtain ⟨u, hwrite, hnext⟩ := orRaise_next.mp h
  obtain rfl := memWrite_next hwrite
  rw [mem_of_done hnext, Memory.read_writeList, if_pos (Nat.le_add_right ..), Nat.add_sub_cancel_left, hj,
    Option.getD_some]

/-- A digit fits in a byte, so the byte stored for it is the digit (R154). -/
theorem read_of_storeBCD {x : RegIdx} {s t : State} {j d : Nat} (h : exec (.storeBCD x) s = .next t)
    (hj : (bcdDigits (s.getV x))[j]? = some (BitVec.ofNat 8 d)) (hd : d < 256) :
    (t.mem.read (s.base + j)).toNat = d := by
  rw [read_of_memWrite_done_inside h hj, BitVec.toNat_ofNat, Nat.mod_eq_of_lt hd]

/-! ### LoadRegs (R156) -/

/-- A LoadRegs whose range lies in memory goes on, and every register is what R156 says. -/
theorem exists_loadRegs_next (x : RegIdx) (s : State) (h : s.base + x.val ≤ 0xFFF) :
    ∃ t, exec (.loadRegs x) s = .next t ∧
      ∀ i : RegIdx, t.getV i = if i ≤ x then s.mem.read (s.base + i.val) else s.getV i := by
  refine ⟨(s.loadRegsUpTo x (s.mem.readList s.base (x.val + 1))).advance 2, ?_, fun i => ?_⟩
  · rw [exec, execLoadRegs, memRead_ok s _ _ (.inr (by omega)), orRaise_ok, State.done]
  · rw [State.getV_advance, State.getV_loadRegsUpTo]
    refine ite_congr rfl (fun hi => ?_) fun _ => rfl
    rw [List.getD_eq_getElem?_getD, Memory.readList_get _ _ _ _ (Nat.lt_succ_of_le hi), Option.getD_some]

theorem exec_loadRegs_error (x : RegIdx) (s : State) (h : 0xFFF < s.base + x.val) :
    exec (.loadRegs x) s = .fault (.addressOutOfRange (max s.base 0x1000)) := by
  rw [exec, execLoadRegs, memRead_error s _ _ (Nat.succ_pos _) (by omega), orRaise_error]

end Sys2Proof.Machine
end

section
/-! The statements of spec/43_index_memory.md: StoreBCD, StoreRegs, LoadRegs, and the three that set `I`. -/

namespace Sys2Proof.Proofs

open Sys2Proof.Machine Sys2Proof.Claims

/-- Settles O31: the three bytes are the list `bcdDigits`, stored whole or not at all. -/
theorem storeBcdDigits : Obligations.StoreBcdDigits := by
  intro x s
  refine ⟨isWordOf_base_reg rfl rfl rfl, fun hrange => ?_, fun hpast => ?_⟩
  · have hexec : exec (.storeBCD x) s = .next _ := memWrite_done_ok s (Nat.succ_le_succ hrange)
    exact ⟨_, hexec, read_of_storeBCD (j := 0) hexec rfl (by omega), read_of_storeBCD hexec rfl (by omega),
      read_of_storeBCD hexec rfl (by omega), fun _ => exec_read_outside hexec,
      advances_of_sequential hexec rfl rfl rfl, exec_sameBut hexec⟩
  · exact memWrite_done_error s (Nat.succ_pos 2) (Nat.succ_lt_succ hpast)

/-- Settles O32, by `read_of_storeRegs` and, outside the range stored, `exec_read_outside`. -/
theorem storeRegsStores : Obligations.StoreRegsStores := by
  intro x s
  have hlen : (s.regsUpTo x).length = x.val + 1 := s.regsUpTo_length x
  refine ⟨isWordOf_base_reg rfl rfl rfl, fun hrange => ?_, fun hpast => ?_⟩
  · have hexec : exec (.storeRegs x) s = .next _ := memWrite_done_ok s (by omega)
    exact ⟨_, hexec, fun _ => read_of_storeRegs hexec, fun _ => exec_read_outside hexec,
      advances_of_sequential hexec rfl rfl rfl, exec_sameBut hexec⟩
  · exact memWrite_done_error s (by omega) (by omega)

/-- Settles O33, by `exists_loadRegs_next` and `exec_loadRegs_error`. -/
theorem loadRegsLoads : Obligations.LoadRegsLoads := by
  intro x s
  refine ⟨isWordOf_base_reg rfl rfl rfl, fun hrange => ?_, exec_loadRegs_error x s⟩
  obtain ⟨t, hexec, hregs⟩ := exists_loadRegs_next x s hrange
  exact ⟨t, hexec, hregs, advances_of_sequential hexec rfl rfl rfl, exec_sameBut hexec⟩

/-- Settles O34: the store's range lay in memory, so the load from the same `I` goes on, and it reads what
`read_of_storeRegs` says was stored. -/
theorem loadRegsUndoesStoreRegs : Obligations.LoadRegsUndoesStoreRegs := by
  intro x s t u hstore hmem hI
  have hbase : u.base = s.base := congrArg BitVec.toNat hI
  obtain ⟨hrange, _⟩ := storeRegs_next hstore
  obtain ⟨v, hload, hregs⟩ := exists_loadRegs_next x u (hbase ▸ hrange)
  refine ⟨v, hload, fun i hi => ?_⟩
  rw [hregs i, if_pos hi, hmem, hbase, read_of_storeRegs hstore hi]

/-- Settles O28: a 12-bit address is written to `I` as it is. -/
theorem loadIndexLoads : Obligations.LoadIndexLoads := by
  intro nnn s
  have hexec : exec (.loadIndex nnn) s = .next ((s.setI (zext16 nnn)).advance 2) := rfl
  exact ⟨isWordOf_addr rfl rfl rfl, _, hexec, zext16_toNat nnn, advances_of_sequential hexec rfl rfl rfl,
    exec_sameBut hexec⟩

/-- Settles O29: the sum is that of 16-bit words. -/
theorem addriWrapsAt16Bits : Obligations.AddriWrapsAt16Bits := by
  intro x s
  have hexec : exec (.addri x) s = .next ((s.setI (s.I + zextByte (s.getV x))).advance 2) := rfl
  refine ⟨isWordOf_base_reg rfl rfl rfl, _, hexec, ?_, advances_of_sequential hexec rfl rfl rfl, exec_sameBut hexec⟩
  rw [State.advance_I, State.setI_I, BitVec.toNat_add, zextByte_toNat]

/-- Settles O30: the largest product is 255 * 5, so it does not wrap. -/
theorem ldsiIsFiveTimesVx : Obligations.LdsiIsFiveTimesVx := by
  intro x s
  have hexec : exec (.ldsi x) s = .next ((s.setI (zextByte (s.getV x) * 5)).advance 2) := rfl
  refine ⟨isWordOf_base_reg rfl rfl rfl, _, hexec, ?_, advances_of_sequential hexec rfl rfl rfl, exec_sameBut hexec⟩
  rw [State.advance_I, State.setI_I, BitVec.toNat_mul, zextByte_toNat]
  exact Nat.mod_eq_of_lt (show (s.getV x).toNat * 5 < 65536 by omega)

end Sys2Proof.Proofs
end

section
/-! SUPPORT. What a drawn sprite does to the frame (spec/44_display.md R172): the pixels that `plot`, a row and a whole
sprite flip, and when each reports a collision; then what Draw answers. -/

namespace Sys2Proof.Machine

open Sys2Proof.Claims

/-! ### The pixels of the pattern are flipped, the set ones among them are reported -/

/-- `after` is `before` with exactly the in-frame pixels of `pattern` flipped, and a collision added when one was
set. -/
structure Plots (pattern : Nat → Nat → Prop) (before after : Canvas) : Prop where
  flips : ∀ X Y, X < 64 → Y < 32 → pattern X Y → fbGet after.1 X Y = !fbGet before.1 X Y
  keeps : ∀ X Y, ¬ pattern X Y → fbGet after.1 X Y = fbGet before.1 X Y
  collides : after.2 = true ↔
    before.2 = true ∨ ∃ X Y, X < 64 ∧ Y < 32 ∧ pattern X Y ∧ fbGet before.1 X Y = true

section
variable {p q r : Nat → Nat → Prop} {c d e : Canvas}

theorem Plots.of_empty (hp : ∀ X Y, ¬ p X Y) : Plots p c c where
  flips X Y _ _ h := absurd h (hp X Y)
  keeps _ _ _ := rfl
  collides := by simp [hp]

/-- Two disjoint patterns, one after the other, are their union at once: neither sees the pixels the other flipped. -/
theorem Plots.trans (hcd : Plots p c d) (hde : Plots q d e) (hdisj : ∀ X Y, p X Y → ¬ q X Y)
    (hr : ∀ X Y, r X Y ↔ p X Y ∨ q X Y) : Plots r c e where
  flips X Y hX hY h := by
    rcases (hr X Y).mp h with hp | hq
    · rw [hde.keeps X Y (hdisj X Y hp), hcd.flips X Y hX hY hp]
    · rw [hde.flips X Y hX hY hq, hcd.keeps X Y fun hp => hdisj X Y hp hq]
  keeps X Y h := by
    obtain ⟨hp, hq⟩ := not_or.mp fun hpq => h ((hr X Y).mpr hpq)
    rw [hde.keeps X Y hq, hcd.keeps X Y hp]
  collides := by
    have hqd : ∀ X Y, q X Y ∧ fbGet d.1 X Y = true ↔ q X Y ∧ fbGet c.1 X Y = true := fun X Y =>
      and_congr_right fun hq => by rw [hcd.keeps X Y fun hp => hdisj X Y hp hq]
    rw [hde.collides, hcd.collides, or_assoc]
    simp only [hqd, hr, or_and_right, and_or_left, exists_or]

end

/-! ### A bit, a row, a sprite -/

theorem inside_of_fbGet {fb : Framebuffer} {x y : Nat} (h : fbGet fb x y = true) : x < 64 ∧ y < 32 := by
  by_contra hout
  rw [fbGet, dif_neg hout] at h
  exact Bool.false_ne_true h

/-- The pixel of one sprite bit, if the bit is set. -/
def BitPixel (bit : Bool) (x y X Y : Nat) : Prop := X = x ∧ Y = y ∧ bit = true

theorem plots_bit (bit : Bool) (c : Canvas) (x y : Nat) :
    Plots (BitPixel bit x y) c (if bit then plot c x y else c) := by
  cases bit with
  | false => exact .of_empty fun _ _ h => Bool.false_ne_true h.2.2
  | true =>
    refine ⟨fun X Y hX hY h => ?_, fun X Y h => ?_, ?_⟩
    · obtain ⟨rfl, rfl, _⟩ := h
      simp [plot_fst, fbGet_fbFlip, hX, hY]
    · have hne : ¬ (X = x ∧ Y = y ∧ x < 64 ∧ y < 32) := fun e => h ⟨e.1, e.2.1, rfl⟩
      simp [plot_fst, fbGet_fbFlip, hne]
    · rw [if_pos rfl, plot_snd, Bool.or_eq_true]
      refine or_congr_right ⟨fun h => ?_, fun ⟨X, Y, _, _, ⟨hX, hY, _⟩, h⟩ => hX ▸ hY ▸ h⟩
      obtain ⟨hx, hy⟩ := inside_of_fbGet h
      exact ⟨x, y, hx, hy, ⟨rfl, rfl, rfl⟩, h⟩

/-- The pixels of the first `k` columns of a sprite row with its left end at `(x, y)`. -/
def RowPixel (row : Byte) (x y k X Y : Nat) : Prop :=
  Y = y ∧ x ≤ X ∧ X < x + k ∧ row.getLsbD (7 - (X - x)) = true

theorem rowPixel_succ (row : Byte) (x y k X Y : Nat) :
    RowPixel row x y (k + 1) X Y ↔ RowPixel row x y k X Y ∨ BitPixel (row.getLsbD (7 - k)) (x + k) y X Y := by
  unfold RowPixel BitPixel
  constructor
  · rintro ⟨rfl, hx, hX, hbit⟩
    obtain hlt | rfl : X < x + k ∨ X = x + k := by omega
    · exact .inl ⟨rfl, hx, hlt, hbit⟩
    · exact .inr ⟨rfl, rfl, by rwa [Nat.add_sub_cancel_left] at hbit⟩
  · rintro (⟨rfl, hx, hX, hbit⟩ | ⟨rfl, rfl, hbit⟩)
    · exact ⟨rfl, hx, by omega, hbit⟩
    · exact ⟨rfl, by omega, by omega, by rwa [Nat.add_sub_cancel_left]⟩

/-- `plotRow` over the first `k` columns only. -/
theorem plots_columns (c : Canvas) (x y : Nat) (row : Byte) (k : Nat) :
    Plots (RowPixel row x y k) c
      ((List.range k).foldl (fun c k => if row.getLsbD (7 - k) then plot c (x + k) y else c) c) := by
  induction k with
  | zero => exact .of_empty fun X _ ⟨_, hx, hX, _⟩ => absurd hX (Nat.not_lt.mpr hx)
  | succ k ih =>
    rw [List.range_succ, List.foldl_append]
    refine ih.trans (plots_bit _ _ (x + k) y) (fun X Y hrow hbit => ?_) (rowPixel_succ row x y k)
    exact absurd hbit.1 (Nat.ne_of_lt hrow.2.2.1)

theorem plots_row (c : Canvas) (x y : Nat) (row : Byte) : Plots (RowPixel row x y 8) c (plotRow c x y row) :=
  plots_columns c x y row 8

/-- The pixels of the rows of a sprite from `(x, y)` downwards. -/
def RowsPixel (rows : List Byte) (x y X Y : Nat) : Prop :=
  y ≤ Y ∧ ∃ row, rows[Y - y]? = some row ∧ RowPixel row x Y 8 X Y

theorem rowsPixel_cons (row : Byte) (rows : List Byte) (x y X Y : Nat) :
    RowsPixel (row :: rows) x y X Y ↔ RowPixel row x y 8 X Y ∨ RowsPixel rows x (y + 1) X Y := by
  rcases Nat.lt_trichotomy Y y with hlt | rfl | hgt
  · have hy : ¬ y ≤ Y := by omega
    have hy' : ¬ y + 1 ≤ Y := by omega
    have hne : Y ≠ y := by omega
    simp only [RowsPixel, RowPixel, hy, hy', hne, false_and, or_false]
  · simp [RowsPixel]
  · have hsub : Y - y = Y - (y + 1) + 1 := by omega
    have hne : Y ≠ y := by omega
    have hy : y ≤ Y ∧ y + 1 ≤ Y := by omega
    simp only [RowsPixel, hsub, List.getElem?_cons_succ, hy, true_and]
    simp only [RowPixel, hne, false_and, false_or]

theorem plots_rows (c : Canvas) (x y : Nat) (rows : List Byte) :
    Plots (RowsPixel rows x y) c (plotRows c x y rows) := by
  induction rows generalizing c y with
  | nil => exact .of_empty fun _ _ ⟨_, _, hrow, _⟩ => by simp at hrow
  | cons row rows ih =>
    refine (plots_row c x y row).trans (ih _ (y + 1)) (fun X Y hrow hrows => ?_) (rowsPixel_cons row rows x y)
    obtain ⟨hY, _⟩ := hrow
    obtain ⟨hY', _⟩ := hrows
    omega

/-- The rows read from memory are the sprite of the statements. -/
theorem rowsPixel_readList (s : State) (px py n X Y : Nat) :
    RowsPixel (s.mem.readList s.base n) px py X Y ↔ SpriteBit s px py n X Y := by
  unfold RowsPixel RowPixel SpriteBit
  constructor
  · rintro ⟨hy, row, hrow, _, hx, hX, hbit⟩
    have hlt : Y - py < n := by
      obtain ⟨h, _⟩ := List.getElem?_eq_some_iff.mp hrow
      rwa [Memory.readList_length] at h
    rw [Memory.readList_get _ _ _ _ hlt] at hrow
    cases hrow
    exact ⟨hx, hX, hy, by omega, hbit⟩
  · rintro ⟨hx, hX, hy, hY, hbit⟩
    exact ⟨hy, _, Memory.readList_get _ _ _ _ (by omega), rfl, hx, hX, hbit⟩

/-! ### What Draw answers (R172, R56) -/

section
variable {x y : RegIdx} {n : Fin 16} {s t : State}

theorem exec_draw_error (h0 : 0 < n.val) (h : 0x1000 < s.base + n.val) :
    exec (.draw x y n) s = .fault (.addressOutOfRange (max s.base 0x1000)) := by
  rw [exec, execDraw, memRead_error s _ _ h0 h, orRaise_error]

/-- Draw goes on exactly when its bytes lie in memory. -/
theorem exists_draw_next_iff : (∃ t, exec (.draw x y n) s = .next t) ↔ n.val = 0 ∨ s.base + n.val ≤ 0x1000 := by
  rw [exec, execDraw, memRead_eq]
  split
  · next h => exact iff_of_true ⟨_, rfl⟩ h
  · next h => exact iff_of_false (fun ⟨_, hnext⟩ => nomatch hnext) h

/-- A Draw that goes on plots its sprite, and `VF` is the collision flag of exactly this sprite. -/
theorem draw_plots (h : exec (.draw x y n) s = .next t) :
    ∃ collision, t.getV 15 = collisionFlag collision ∧
      Plots (Drawn s x y n) (s.fb, false) (t.fb, collision) := by
  have hrange := exists_draw_next_iff.mp ⟨t, h⟩
  rw [exec, execDraw, memRead_ok s _ _ hrange, orRaise_ok, State.done] at h
  cases h
  have hpattern : RowsPixel (s.mem.readList s.base n.val) (s.getV x).toNat (s.getV y).toNat = Drawn s x y n :=
    funext₂ fun X Y => propext (rowsPixel_readList s _ _ _ X Y)
  exact ⟨_, State.getV_setV_same _ vf _, hpattern ▸ plots_rows (s.fb, false) _ _ _⟩

theorem collisionFlag_eq_one_iff (c : Bool) : collisionFlag c = 1 ↔ c = true := by
  cases c <;> decide

theorem vf_of_draw (h : exec (.draw x y n) s = .next t) : t.getV 15 = 1 ∨ t.getV 15 = 0 := by
  obtain ⟨collision, hvf, _⟩ := draw_plots h
  rw [hvf]
  cases collision <;> decide

/-- `VF` is 1 exactly when the Draw unset a pixel. -/
theorem vf_of_draw_eq_one_iff (h : exec (.draw x y n) s = .next t) :
    t.getV 15 = 1 ↔ ∃ X Y, X < 64 ∧ Y < 32 ∧ Drawn s x y n X Y ∧ fbGet s.fb X Y = true := by
  obtain ⟨collision, hvf, hplots⟩ := draw_plots h
  rw [hvf, collisionFlag_eq_one_iff, hplots.collides]
  simp

theorem fbGet_of_drawn (h : exec (.draw x y n) s = .next t) {X Y : Nat} (hX : X < 64) (hY : Y < 32)
    (hdrawn : Drawn s x y n X Y) : fbGet t.fb X Y = !fbGet s.fb X Y := by
  obtain ⟨_, _, hplots⟩ := draw_plots h
  exact hplots.flips X Y hX hY hdrawn

theorem fbGet_of_not_drawn (h : exec (.draw x y n) s = .next t) {X Y : Nat} (hdrawn : ¬ Drawn s x y n X Y) :
    fbGet t.fb X Y = fbGet s.fb X Y := by
  obtain ⟨_, _, hplots⟩ := draw_plots h
  exact hplots.keeps X Y hdrawn

theorem base_of_draw (h : exec (.draw x y n) s = .next t) : t.base = s.base :=
  congrArg BitVec.toNat (exec_sameBut h .I (by simp [partsWritten]))

/-- A Draw changes neither the sprite nor, unless it is `VF`, a coordinate, so the same Draw after it draws the same
pixels. -/
theorem drawn_after_draw (h : exec (.draw x y n) s = .next t) (hx : x ≠ 15) (hy : y ≠ 15) :
    Drawn t x y n = Drawn s x y n := by
  have hmem : t.mem = s.mem := mem_of_exec h (by simp [partsWritten])
  have hVx : t.getV x = s.getV x := exec_getV h rfl fun hvf => hx hvf.1
  have hVy : t.getV y = s.getV y := exec_getV h rfl fun hvf => hy hvf.1
  funext X Y
  simp only [Drawn, SpriteBit, base_of_draw h, hmem, hVx, hVy]

/-- Of the pixels inside the frame, a Draw sets those that it draws and that were clear. -/
theorem drawn_and_set_iff (h : exec (.draw x y n) s = .next t) {X Y : Nat} (hX : X < 64) (hY : Y < 32) :
    Drawn s x y n X Y ∧ fbGet t.fb X Y = true ↔ fbGet s.fb X Y = false ∧ fbGet t.fb X Y = true := by
  by_cases hdrawn : Drawn s x y n X Y
  · simp [hdrawn, fbGet_of_drawn h hX hY hdrawn]
  · simp [hdrawn, fbGet_of_not_drawn h hdrawn]

end

/-- The clear frame is the only one with no pixel set. -/
theorem eq_fbClear {f : Framebuffer} (h : ∀ X Y, X < 64 → Y < 32 → fbGet f X Y = false) : f = fbClear :=
  fb_ext fun X Y hX hY => (h X Y hX hY).trans (fbGet_fbClear X Y).symm

end Sys2Proof.Machine
end

section
/-! The statements of spec/44_display.md: CLS, Draw, and two Draws. -/

namespace Sys2Proof.Proofs

open Sys2Proof.Machine Sys2Proof.Claims

/-- Settles O37, by `exists_draw_next_iff` and `exec_draw_error`, which share out the states, and by `draw_plots`. -/
theorem drawXorsTheSprite : Obligations.DrawXorsTheSprite := by
  intro x y n s
  refine ⟨isWordOf_regReg rfl rfl (by rw [toNibble_toNat]; simp only [BitVec.toNat_ofNat]; omega), fun hrange => ?_,
    fun h0 hpast => exec_draw_error h0 (by omega)⟩
  obtain ⟨t, hexec⟩ := exists_draw_next_iff.mpr (show n.val = 0 ∨ s.base + n.val ≤ 0x1000 by omega)
  exact ⟨t, hexec, fun X Y hX hY => ⟨fbGet_of_drawn hexec hX hY, fbGet_of_not_drawn hexec⟩, vf_of_draw hexec,
    vf_of_draw_eq_one_iff hexec, fun j hj => exec_getV hexec rfl fun hvf => hj (List.mem_singleton.mpr hvf.1),
    advances_of_sequential hexec rfl rfl rfl, exec_sameBut hexec⟩

/-- Settles O38: the second Draw draws the same pixels by `drawn_after_draw`, so it flips each of them back. -/
theorem drawTwiceRestores : Obligations.DrawTwiceRestores := by
  intro x y n s t hx hy hfirst
  have hdrawn := drawn_after_draw hfirst hx hy
  obtain ⟨u, hsecond⟩ := exists_draw_next_iff.mpr (base_of_draw hfirst ▸ exists_draw_next_iff.mp ⟨t, hfirst⟩)
  refine ⟨u, hsecond, fb_ext fun X Y hX hY => ?_, ?_⟩
  · by_cases h : Drawn s x y n X Y
    · rw [fbGet_of_drawn hsecond hX hY (hdrawn ▸ h), fbGet_of_drawn hfirst hX hY h, Bool.not_not]
    · rw [fbGet_of_not_drawn hsecond (hdrawn ▸ h), fbGet_of_not_drawn hfirst h]
  · rw [vf_of_draw_eq_one_iff hsecond, hdrawn]
    exact exists₂_congr fun X Y => and_congr_right fun hX => and_congr_right fun hY =>
      drawn_and_set_iff hfirst hX hY

/-- Settles O36: a frame with no pixel set is the frame CLS writes, so the two Draws begin in the same state. -/
theorem clsClears : Obligations.ClsClears := by
  intro s
  have hexec : exec .cls s = .next ({ s with fb := fbClear }.advance 2) := rfl
  refine ⟨rfl, _, hexec, fun X Y _ _ => fbGet_fbClear X Y, advances_of_sequential hexec rfl rfl rfl,
    exec_sameBut hexec, fun x y n f hf => ?_⟩
  rw [eq_fbClear hf]
  rfl

end Sys2Proof.Proofs
end

section
/-! SUPPORT. The key as the instructions read it (spec/45_keys_timers.md R180, R183): the match as a proposition, and
the value that LDKR loads. -/

namespace Sys2Proof.Machine

theorem lowNibble_toNat (v : Byte) : (v.extractLsb' 0 4).toNat = v.toNat % 16 := by
  rw [BitVec.extractLsb'_toNat, Nat.shiftRight_zero]

/-- Only the low nibble of the byte is compared, and with no key held nothing matches. -/
theorem keyMatch_iff (s : State) (v : Byte) :
    s.keyMatch v = true ↔ ∃ k : Nibble, s.key = some k ∧ k.toNat = v.toNat % 16 := by
  rw [State.keyMatch, beq_iff_eq, ← lowNibble_toNat]
  constructor
  · exact fun h => ⟨_, h, rfl⟩
  · rintro ⟨k, hkey, hk⟩
    rw [hkey, BitVec.eq_of_toNat_eq hk]

theorem zextKey_toNat (k : Nibble) : (zextKey k).toNat = k.toNat := by
  rw [zextKey, BitVec.toNat_setWidth_of_le (by omega)]

end Sys2Proof.Machine
end

section
/-! The statements of spec/45_keys_timers.md: the key skips, LDKR's entry and its end, and the timer moves. -/

namespace Sys2Proof.Proofs

open Sys2Proof.Machine Sys2Proof.Claims

/-- Settles O39: both skips are instances of `exists_skipIf_next`, and `keyMatch_iff` says which way each goes. -/
theorem keySkips : Obligations.KeySkips := by
  intro x s
  obtain ⟨t, hskip, hpc, hrest⟩ := exists_skipIf_next s (c := s.keyMatch (s.getV x)) rfl
  obtain ⟨u, hskipNot, hpcNot, hrestNot⟩ := exists_skipIf_next s (c := !s.keyMatch (s.getV x)) rfl
  refine ⟨isWordOf_base_reg rfl rfl rfl, isWordOf_base_reg rfl rfl rfl, t, u, hskip, hskipNot, fun hmatch => ?_,
    fun hmatch => ?_, hrest, hrestNot⟩
  · rw [← keyMatch_iff] at hmatch
    rw [hmatch] at hpc hpcNot
    exact ⟨hpc, hpcNot⟩
  · rw [← keyMatch_iff, Bool.not_eq_true] at hmatch
    rw [hmatch] at hpc hpcNot
    exact ⟨hpc, hpcNot⟩

/-- Settles O40: the entry sets the mode and does not look at the key (D11). -/
theorem ldkrEntersTheWait : Obligations.LdkrEntersTheWait := fun x s =>
  ⟨isWordOf_base_reg rfl rfl rfl, s.setMode (.awaitingKey x), rfl, rfl, sameBut_setMode s _⟩

/-- Settles O41, by the two cases of `resumeLdkr`, a Step without and with a key. -/
theorem ldkrResumesWithAKey : Obligations.LdkrResumesWithAKey := by
  intro x s hmode
  refine ⟨fun hkey => ?_, fun k hkey => ?_⟩
  · rw [step_awaitingKey hmode, resumeLdkr_noKey x hkey]
  · rw [step_awaitingKey hmode, resumeLdkr_key x hkey]
    refine ⟨_, rfl, ?_, fun j hj => s.getV_setV_ne _ (List.ne_of_not_mem_cons hj), rfl,
      advances_advance ((s.setV x _).setMode .ready) 2,
      ((sameBut_setV s x _).trans (sameBut_setMode _ .ready)).done rfl⟩
    rw [State.getV_advance, State.getV_setMode, State.getV_setV_same, zextKey_toNat]

/-- Settles O44: each is one write, of a register or of a timer. -/
theorem timerMoves : Obligations.TimerMoves := fun x s =>
  ⟨isWordOf_base_reg rfl rfl rfl, isWordOf_base_reg rfl rfl rfl, isWordOf_base_reg rfl rfl rfl,
    ⟨_, rfl, getV_setV_advance s x s.DT, setV_advance_frame s x s.DT⟩,
    ⟨_, rfl, rfl, advances_advance (s.setDT _) 2, (sameBut_setDT s _).done rfl⟩,
    ⟨_, rfl, rfl, advances_advance (s.setST _) 2, (sameBut_setST s _).done rfl⟩⟩

end Sys2Proof.Proofs
end

section
/-! SUPPORT. Errors and ticks (spec/60_exceptions.md R200, R202, R204, R210): how an instruction can end, what an
error reply leaves, and the timers under any number of ticks. -/

namespace Sys2Proof.Machine

open Sys2Proof.Claims

/-! ### How an instruction ends (R200, R204) -/

/-- An error the instruction can end with at `s`: the stack is full or empty, or its bytes at `I` reach past 0xFFF. -/
def FailsWith (i : Instr) (s : State) (e : Fault) : Prop :=
  (∃ nnn, i = .call nnn ∧ e = .stackOverflow ∧ s.sp.val = 16) ∨
  (i = .ret ∧ e = .stackUnderflow ∧ s.sp.val = 0) ∨
  (0 < dataBytes i ∧ 0x1000 < s.base + dataBytes i ∧ e = .addressOutOfRange (max s.base 0x1000))

theorem failsWith_addressOutOfRange {i : Instr} {s : State} (h0 : 0 < dataBytes i)
    (hpast : 0x1000 < s.base + dataBytes i) : FailsWith i s (.addressOutOfRange (max s.base 0x1000)) :=
  .inr (.inr ⟨h0, hpast, rfl⟩)

/-- A store at `I` of the bytes an instruction writes goes on, or ends with that instruction's range error. -/
theorem memWrite_done_next_or_fault (i : Instr) (s : State) {vs : List Byte} (hlen : vs.length = dataBytes i) :
    (∃ t, orRaise (s.memWrite s.base vs) State.done = .next t) ∨
      ∃ e, orRaise (s.memWrite s.base vs) State.done = .fault e ∧ FailsWith i s e := by
  rw [memWrite_eq, hlen]
  split
  · exact .inl ⟨_, rfl⟩
  · exact .inr ⟨_, rfl, failsWith_addressOutOfRange (by omega) (by omega)⟩

/-- Every instruction goes on or ends with an error that `FailsWith` lists; none is refused. -/
theorem exec_next_or_fault (i : Instr) (s : State) :
    (∃ t, exec i s = .next t) ∨ ∃ e, exec i s = .fault e ∧ FailsWith i s e := by
  cases i with
  | call nnn =>
    by_cases hfull : s.sp.val = 16
    · exact .inr ⟨_, exec_call_full nnn s hfull, .inl ⟨nnn, rfl, rfl, hfull⟩⟩
    · exact .inl ⟨_, exec_call_ok nnn s (by omega)⟩
  | ret =>
    by_cases hempty : s.sp.val = 0
    · exact .inr ⟨_, exec_ret_empty s hempty, .inr (.inl ⟨rfl, rfl, hempty⟩)⟩
    · exact .inl ⟨_, exec_ret_ok s (by omega)⟩
  | draw x y n =>
    by_cases hfits : n.val = 0 ∨ s.base + n.val ≤ 0x1000
    · exact .inl (exists_draw_next_iff.mpr hfits)
    · have h0 : 0 < n.val := by omega
      have hpast : 0x1000 < s.base + n.val := by omega
      exact .inr ⟨_, exec_draw_error h0 hpast, failsWith_addressOutOfRange h0 hpast⟩
  | storeBCD x => exact memWrite_done_next_or_fault (.storeBCD x) s rfl
  | storeRegs x => exact memWrite_done_next_or_fault (.storeRegs x) s (s.regsUpTo_length x)
  | loadRegs x =>
    rcases Nat.lt_or_ge 0xFFF (s.base + x.val) with hpast | hfits
    · exact .inr ⟨_, exec_loadRegs_error x s hpast,
        failsWith_addressOutOfRange (Nat.succ_pos _) (Nat.succ_lt_succ hpast)⟩
    · obtain ⟨t, hnext, _⟩ := exists_loadRegs_next x s hfits
      exact .inl ⟨t, hnext⟩
  | _ => exact .inl ⟨_, rfl⟩

/-! ### What an error leaves (R202) -/

@[simp] theorem stateAfter_fault (s : State) (e : Fault) : stateAfter s (.fault e) = s := rfl

/-- LoadRom's reply is no Step's error, and it is an error exactly when LoadRom failed. -/
theorem loadReply_error_iff {r : Result} {e : Fault} :
    loadReply r = .stepped (.error e) ∨ loadReply r = .loadError e ↔ r = .fault e := by
  cases r <;> simp [loadReply]

/-! ### Ticks (R210) -/

theorem tickTimer_toNat (v : Byte) : (tickTimer v).toNat = v.toNat - 1 := by
  unfold tickTimer
  split
  · next hpos => exact BitVec.toNat_sub_of_le hpos
  · next hzero => omega

theorem iterate_tickTimer_toNat (k : Nat) (v : Byte) : (tickTimer^[k] v).toNat = v.toNat - k := by
  induction k with
  | zero => rfl
  | succ k ih => rw [Function.iterate_succ_apply', tickTimer_toNat, ih, Nat.sub_sub]

theorem iterate_tickTimers_DT (k : Nat) (s : State) : (tickTimers^[k] s).DT = tickTimer^[k] s.DT :=
  Function.Semiconj.iterate_right tickTimers_DT k s

theorem iterate_tickTimers_ST (k : Nat) (s : State) : (tickTimers^[k] s).ST = tickTimer^[k] s.ST :=
  Function.Semiconj.iterate_right tickTimers_ST k s

theorem sameBut_tickTimers (s : State) : SameBut [.DT, .ST] s (tickTimers s) := by
  intro p hp; cases p <;> simp_all [SamePart, State.getV]

theorem sameBut_iterate_tickTimers (k : Nat) (s : State) : SameBut [.DT, .ST] s (tickTimers^[k] s) := by
  induction k with
  | zero => exact (sameBut_refl s).mono (List.nil_subset _)
  | succ k ih =>
    rw [Function.iterate_succ_apply']
    exact (ih.trans (sameBut_tickTimers _)).mono (by decide)

end Sys2Proof.Machine
end

section
/-! The statements of spec/60_exceptions.md: which instructions fail, the ticks, and that an error changes nothing. -/

namespace Sys2Proof.Proofs

open Sys2Proof.Machine Sys2Proof.Claims

/-- Settles O10: `exec_next_or_fault` lists how an instruction can end. -/
theorem onlyTheseInstructionsFail : Obligations.OnlyTheseInstructionsFail := by
  refine ⟨fun i s e h => ?_, fun i s r h => ?_⟩
  · obtain ⟨t, hnext⟩ | ⟨e', hfault, hfails⟩ := exec_next_or_fault i s
    · cases hnext.symm.trans h
    · cases hfault.symm.trans h
      exact hfails
  · obtain ⟨t, hnext⟩ | ⟨e', hfault, _⟩ := exec_next_or_fault i s
    · cases hnext.symm.trans h
    · cases hfault.symm.trans h

/-- Settles O45: each timer ticks by itself, and a tick takes 1 from what is left, not below 0. -/
theorem ticksFloorAtZero : Obligations.TicksFloorAtZero := by
  intro k s
  refine ⟨?_, ?_, sameBut_iterate_tickTimers k s⟩
  · rw [iterate_tickTimers_DT, iterate_tickTimer_toNat]
  · rw [iterate_tickTimers_ST, iterate_tickTimer_toNat]

/-- Settles O54: only LoadRom and Step reply with an error, each exactly when it ended with one. -/
theorem anErrorChangesNothing : Obligations.AnErrorChangesNothing := by
  intro op s e h
  cases op with
  | loadRom rom =>
    have hfault : loadRom rom s = .fault e := loadReply_error_iff.mp h
    rw [runHostOp, hfault, stateAfter_fault]
  | step =>
    obtain ⟨herror, _⟩ := stepReturnsItsResult s
    have hfault : step s = .fault e := (herror e).mpr (by simpa [runHostOp] using h)
    rw [runHostOp, hfault, stateAfter_fault]
  | readFramebuffer | readTimers => rfl
  | tickTimers | setKey | reset => simp [runHostOp] at h

end Sys2Proof.Proofs
end

section
/-! SUPPORT. LoadRom case by case (spec/70_reset_and_hazards.md R232): its two errors, and all that a load which
succeeds changes. -/

namespace Sys2Proof.Machine

open Sys2Proof.Claims

theorem loadRom_alreadyLoaded (rom : List Byte) {s : State} (hloaded : s.romLoaded = true) :
    loadRom rom s = .fault .alreadyLoaded := if_pos hloaded

theorem loadRom_tooLarge {rom : List Byte} {s : State} (hfree : s.romLoaded = false) (hlarge : 3584 < rom.length) :
    loadRom rom s = .fault .romTooLarge := by
  rw [loadRom, if_neg (Bool.eq_false_iff.mp hfree), if_pos hlarge]
  rfl

theorem exists_loadRom_next {rom : List Byte} {s : State} (hfree : s.romLoaded = false) (hsize : rom.length ≤ 3584) :
    ∃ t, loadRom rom s = .next t ∧ t.mem = s.mem.writeList 0x200 rom ∧ t.pc = 0x200 ∧ t.mode = .ready ∧
      t.romLoaded = true ∧ SameBut [.mem, .pc, .mode, .romLoaded] s t := by
  rw [loadRom, if_neg (Bool.eq_false_iff.mp hfree), if_neg (Nat.not_lt.mpr hsize)]
  refine ⟨_, rfl, rfl, rfl, rfl, rfl, fun p hp => ?_⟩
  cases p with
  | mem | pc | mode | romLoaded => exact absurd (by decide) hp
  | font => exact Memory.writeList_font s.mem 0x200 rom
  | V => exact fun _ => rfl
  | _ => rfl

theorem Memory.read_writeList_get (m : Memory) (a i : Nat) (vs : List Byte) (h : i < vs.length) :
    (m.writeList a vs).read (a + i) = vs[i] := by
  rw [Memory.read_writeList, if_pos (Nat.le_add_right ..), Nat.add_sub_cancel_left, List.getElem?_eq_getElem h,
    Option.getD_some]

end Sys2Proof.Machine
end

section
/-! The statements of spec/70_reset_and_hazards.md: LoadRom, and the state a program starts in. -/

namespace Sys2Proof.Proofs

open Sys2Proof.Machine Sys2Proof.Claims

/-- Settles O56: the two errors, then the memory a load leaves, read inside and outside the bytes written. -/
theorem loadRomLoadsOrFails : Obligations.LoadRomLoadsOrFails := by
  intro rom s
  refine ⟨loadRom_alreadyLoaded rom, loadRom_tooLarge, fun hfree hsize => ?_⟩
  obtain ⟨t, hnext, hmem, hpc, hmode, hloaded, hsame⟩ := exists_loadRom_next hfree hsize
  refine ⟨t, hnext, fun i hi => ?_, fun a ha => ?_, hpc, hmode, hloaded, hsame⟩
  · rw [hmem, Memory.read_writeList_get _ _ _ _ hi]
  · rw [hmem, Memory.read_writeList_outside _ _ _ _ ha]

/-- Settles O57: the parts LoadRom leaves alone hold their reset values (`resetValues`), and the ROM lies above the
font. -/
theorem stateAtProgramEntry : Obligations.StateAtProgramEntry := by
  intro rom s hsize
  obtain ⟨hV, hI, -, -, hsp, hDT, hST, hread, hkey, hfb, -, hfree, -, -⟩ := resetValues s
  obtain ⟨t, hnext, hmem, hpc, hmode, hloaded, hsame⟩ := exists_loadRom_next hfree hsize
  have hfbSame : t.fb = (hostReset s).fb := hsame .fb (by decide)
  refine ⟨t, hnext, hpc, fun i => Eq.trans (hsame .V (by decide) i) (hV i), Eq.trans (hsame .I (by decide)) hI,
    Eq.trans (hsame .sp (by decide)) hsp, Eq.trans (hsame .DT (by decide)) hDT, Eq.trans (hsame .ST (by decide)) hST,
    Eq.trans (hsame .key (by decide)) hkey, hmode, hloaded, fun X Y hX hY => hfbSame ▸ hfb X Y hX hY, fun a => ?_⟩
  rw [hmem, Memory.read_writeList, hread]
  by_cases hfont : a < 80
  · rw [if_neg (by omega), dif_pos hfont, dif_pos hfont]
  · rw [dif_neg hfont, dif_neg hfont]

end Sys2Proof.Proofs
end
